-- ==== Sys2Proof/Word.lean ====
section
/-! DEFINITION. The word types: the 8-bit cell and register value (spec 00_scope.md R7 `XLEN`, R9 `u8`) and the index of a general register (R7 `NREG`). -/

namespace Sys2Proof

/-- A memory cell, a register value, an instruction byte: `u8`, always unsigned (R9). Bit 0 is the least significant bit (R10). -/
abbrev Byte := BitVec 8

/-- The index of one of the eight general registers R0 to R7 (R22). -/
abbrev RegIdx := Fin 8

end Sys2Proof
end

