-- ==== Sys2Proof/Config.lean ====
section
/-! DEFINITION. What the source fixes once for the machine (spec 00_scope.md R7) and the parameters it leaves open (R8): the 22 mnemonics that `OPCODE_MAP` maps to bytes, the reset values of the registers, and the output format. The default of `OPCODE_MAP` itself stands in Sys2Proof/Decode.lean (`opcodeMap`). -/

namespace Sys2Proof

/-- The 22 mnemonics of the instruction table, in its order (R87): the domain of `OPCODE_MAP` (R84). -/
inductive Mnemonic where
  | ldi | prn | hlt | push | pop | call | ret | add | sub | mul | div | mod | and | or | xor | not | shl | shr | cmp | jmp | jeq | jne
  deriving DecidableEq, Repr

/-- `MEM_SIZE`: the number of memory cells (R7, R20). -/
def Config.memSize : Nat := 256

/-- `MAX_PROGRAM`: the longest program a load accepts (R7, R294). -/
def Config.maxProgram : Nat := 256

/-- `LOAD_BASE`: the address a load starts writing at (R7, R293). -/
def Config.loadBase : Nat := 0

/-- `PC_RESET`: the start PC (R7, R30, R296). -/
def Config.pcReset : Nat := 0

/-- `SP_INDEX`: register 7 is the stack pointer (R7, R25). -/
def Config.spIndex : RegIdx := 7

/-- `SP_RESET`: the stack pointer after reset (R7, R26). -/
def Config.spReset : Byte := 255

/-- `GPR_RESET`: the value R0 to R6 hold after reset. DESIGN CHOICE, unsafe: the spec gives none (R28) and leaves the
parameter open (D3); the model takes 0 for each (notes/assumptions/2.md). -/
def Config.gprReset : Byte := 0

/-- `OUT_FORMAT`'s line terminator: one line feed, 0x0A (R126, D16). -/
def Config.lineTerminator : Byte := 0x0A

end Sys2Proof
end

