-- ==== Sys2Proof/Machine/State.lean ====
section
/-! DEFINITION. The whole state of the machine (spec 10_state.md R20 to R41), as plain data; the reasons a step can stop; and the state right after reset (R41, R290). -/

namespace Sys2Proof.Machine

/-- The 256 cells (R20) as a list of (address, byte) pairs in canonical form (`Memory.wf`, Machine/Memory.lean): addresses
strictly rising, and no entry equal to what an unlisted address reads as. -/
abbrev Memory := List Host.Cell

/-- FL: the result of the last comparison, or Unset before any (R34, C1). A program sees no numeric encoding of it (R35). -/
inductive Flag where
  | unset | equal | greater | less
  deriving DecidableEq, Repr

/-- The instructions that move the stack pointer with a range check: the mnemonic a StackFault records (R261, R266). -/
inductive StackOp where
  | push | pop | call | ret
  deriving DecidableEq, Repr

/-- The instructions that divide: the mnemonic a DivideByZero records (R261, R269). -/
inductive DivOp where
  | div | mod
  deriving DecidableEq, Repr

/-- The three causes of OutOfRange, with the address or the index it records (R261, R262). -/
inductive OutOfRangeInfo where
  | fetch (addr : Nat)
  | register (index : Byte)
  | returnAddress (addr : Nat)
  deriving DecidableEq, Repr

/-- The fault kinds that arise while the core runs, with the info each records beside pc0 (R260, R261). The fifth kind,
ProgramTooLarge, is a reply to the host's load and never a status (R270): it stands in Machine/HostPort.lean. -/
inductive CoreFault where
  | outOfRange (info : OutOfRangeInfo)
  | stackFault (op : StackOp) (sp : Byte)
  | unsupportedOpcode (code : Byte)
  | divideByZero (op : DivOp)
  deriving DecidableEq, Repr

/-- The run state (R36). The source's running flag is exactly `status = running` (C7). `faulted` records the kind with its
info and the PC it is reported at (R264, R265, R268). -/
inductive Status where
  | idle
  | running
  | halted
  | faulted (fault : CoreFault) (pc : Nat)
  deriving DecidableEq, Repr

/-- The machine's state: "DOC0's list of Machine State is the whole state" (R39). -/
structure State where
  /-- R0 to R7; R7 is the stack pointer (R22, R25). -/
  regs   : Vector Byte 8
  /-- The program counter: a natural number with no wraparound, 256 included (R31, R33). -/
  pc     : Nat
  /-- FL (R34). -/
  fl     : Flag
  /-- The run state, with the recorded fault (R36). -/
  status : Status
  /-- The bytes PRN has emitted, in execution order (R38). -/
  out    : List Byte
  /-- The one memory, program and stack (R20). -/
  mem    : Memory
  deriving DecidableEq, Repr

/-- The reasons a step could answer `Host.Outcome.fault`: none. Every fault of the spec has a described entry (R265: the status
becomes Faulted and nothing else changes), so a step that raises one answers a NEXT state whose status is
`Status.faulted`; and a core that is not Running keeps its state (R281, R291). Safe and exact: nothing raises this. -/
inductive Fault where
  deriving DecidableEq, Repr

/-- The reasons a step could answer `Host.Outcome.refused`. -/
inductive Refusal where
  /-- Raised by an arm of `exec` whose instruction has no meaning in the model yet; safe (the run stops there). No arm of
  this model raises it. -/
  | notModelled (mnemonic : String)
  deriving DecidableEq, Repr

/-- The state right after reset (R41, R290): memory all zero (nothing listed), R7 = 255, PC = 0, FL = Unset, status Idle, no
output. R0 to R6 hold `Config.gprReset` (DESIGN CHOICE, notes/assumptions/2.md: the spec gives them no reset value). -/
def State.reset : State where
  regs   := #v[Config.gprReset, Config.gprReset, Config.gprReset, Config.gprReset, Config.gprReset, Config.gprReset,
               Config.gprReset, Config.spReset]
  pc     := Config.pcReset
  fl     := .unset
  status := .idle
  out    := []
  mem    := []

end Sys2Proof.Machine
end

