-- ==== Sys2Proof/Machine/Memory.lean ====
section
/-! DEFINITION. The 256-byte memory as data (20_memory.md R50, R58): reading a cell, writing a cell, writing a run of cells, and the canonical form every operation keeps (Laws/Memory.lean proves it). -/

namespace Sys2Proof.Machine

/-- What an address that is not listed reads as: 0x00, since memory is "zero-initialized" (R21). -/
def Memory.unlisted : Byte := 0

/-- The byte at an address. Reading has no side effect (R58). -/
def Memory.read : Memory → Nat → Byte
  | [], _ => Memory.unlisted
  | (a, v) :: m, b => if a = b then v else Memory.read m b

/-- Insert an entry before the first entry of a larger or equal address. -/
def Memory.insert : Memory → Nat → Byte → Memory
  | [], a, v => [(a, v)]
  | (b, w) :: m, a, v => if a ≤ b then (a, v) :: (b, w) :: m else (b, w) :: Memory.insert m a v

/-- Remove every entry of an address. -/
def Memory.erase (m : Memory) (a : Nat) : Memory := m.filter (fun c => c.1 != a)

/-- Store a byte at an address, keeping the canonical form: storing what an unlisted address reads as removes the entry. -/
def Memory.write (m : Memory) (a : Nat) (v : Byte) : Memory :=
  if v = Memory.unlisted then m.erase a else (m.erase a).insert a v

/-- Store bytes at consecutive addresses from `a` up, in order (the loader's "in order", R293). -/
def Memory.writeList (m : Memory) (a : Nat) : List Byte → Memory
  | [] => m
  | v :: vs => Memory.writeList (m.write a v) (a + 1) vs

/-- The canonical form: addresses strictly rising, every address a cell of the memory (R20), no entry equal to what an
unlisted address reads as. -/
abbrev Memory.wf (m : Memory) : Prop :=
  m.Pairwise (fun c d => c.1 < d.1) ∧ ∀ c ∈ m, c.1 < Config.memSize ∧ c.2 ≠ Memory.unlisted

end Sys2Proof.Machine
end

