-- ==== Sys2Proof/Machine/Ops.lean ====
section
/-! DEFINITION. The named operations over registers, PC, flags, status, output and memory (00_scope.md R11), the two stack primitives (41_stack_call.md), and taking a fault (60_exceptions.md R265). Every meaning is written over these. -/

namespace Sys2Proof.Machine

/-- The byte a mathematical integer stores as: its value modulo 256, also when it is negative (R23). -/
def narrow (v : Int) : Byte := BitVec.ofInt 8 v

/-- `x[i]`: read general register i (R11). -/
def readReg (r : RegIdx) (s : State) : Byte := s.regs[r.val]

/-- `x[i] <- v`: write general register i with v mod 256 (R11, R23). No register is hardwired (R22). -/
def writeReg (r : RegIdx) (v : Int) (s : State) : State := { s with regs := s.regs.set r.val (narrow v) r.isLt }

/-- `SP`: another name for `x[7]` (R11, R25). -/
def readSp (s : State) : Byte := readReg Config.spIndex s

/-- `MemRead(a, 1)`: the port has an 8-bit address (R11, R51). -/
def memRead (a : Byte) (s : State) : Byte := s.mem.read a.toNat

/-- `MemWrite(a, 1, v)` (R11, R51). -/
def memWrite (a v : Byte) (s : State) : State := { s with mem := s.mem.write a.toNat v }

/-- `pc <- target`: set directly, with no auto-advance and no check (R11, R32, R236). -/
def setPc (target : Nat) (s : State) : State := { s with pc := target }

/-- `advance_pc(n)`: the PC moves by exactly n, with no bounds check and no wraparound (R33). -/
def advancePc (n : Nat) (s : State) : State := { s with pc := s.pc + n }

/-- `FL <- k` (R11). -/
def setFlag (k : Flag) (s : State) : State := { s with fl := k }

/-- Set the run state (R37). -/
def setStatus (st : Status) (s : State) : State := { s with status := st }

/-- `emit(v)`: append v to the output stream (R11, R124). -/
def emit (v : Byte) (s : State) : State := { s with out := s.out ++ [v] }

/-- The running flag of the source: exactly `status = running` (R36). -/
def runningFlag (s : State) : Bool := decide (s.status = .running)

/-- Fault entry (R265): the status becomes Faulted with the kind, its info and pc0 (R264), and nothing else changes. There is
no vector, handler, saved-state register or mode, and no return from a fault: Faulted lasts until the host resets the core
(R273). -/
def raiseFault (f : CoreFault) (s : State) : State := setStatus (.faulted f s.pc) s

/-- `raise Fault(kind, info)` as the outcome of an instruction: it ends with no other write (R265). -/
def takeFault (f : CoreFault) (s : State) : Host.Outcome State Fault Refusal := .next (raiseFault f s)

/-- The address a push writes: SP - 1, the new SP (R26, R56). -/
def pushAddr (s : State) : Byte := narrow (((readSp s).toNat : Int) - 1)

/-- `push(value)`: decrement SP by 1, then write the value at the new SP (41_stack_call.md, R26). The caller has checked that
SP is not 0. -/
def pushByte (v : Byte) (s : State) : State :=
  memWrite (pushAddr s) v (writeReg Config.spIndex (((readSp s).toNat : Int) - 1) s)

/-- The byte a pop takes: the one at SP (41_stack_call.md). -/
def stackTop (s : State) : Byte := memRead (readSp s) s

/-- What a pop does to SP: increment it by 1; the cell is not cleared (41_stack_call.md, R155). The caller has checked that SP
is not 255. -/
def popSp (s : State) : State := writeReg Config.spIndex (((readSp s).toNat : Int) + 1) s

end Sys2Proof.Machine
end

