-- ==== Sys2Proof/Machine/Operands.lean ====
section
/-! DEFINITION. The operand forms as shared operations: what the instructions of one format do around the value they compute (30_encoding.md R81; 42_alu.md; 43_compare_branch.md). Both operands are read before the result is written (00_scope.md R12). -/

namespace Sys2Proof.Machine

/-- The form `ra := ra OP rb`, 3 bytes: A and B are read as unsigned integers, the result is stored modulo 256, no flag is
written (42_alu.md, R83, R216). -/
def binaryForm (op : Nat → Nat → Int) (ra rb : RegIdx) (s : State) : Host.Outcome State Fault Refusal :=
  .next (advancePc 3 (writeReg ra (op (readReg ra s).toNat (readReg rb s).toNat) s))

/-- The form of DIV and MOD: a divisor of 0 is DivideByZero, with nothing written; else the binary form (R189, R192, R269). -/
def dividingForm (name : DivOp) (op : Nat → Nat → Int) (ra rb : RegIdx) (s : State) : Host.Outcome State Fault Refusal :=
  if readReg rb s = 0 then takeFault (.divideByZero name) s else binaryForm op ra rb s

/-- The form `ra := OP ra`, 2 bytes (R204). -/
def unaryForm (op : Nat → Int) (ra : RegIdx) (s : State) : Host.Outcome State Fault Refusal :=
  .next (advancePc 2 (writeReg ra (op (readReg ra s).toNat) s))

/-- The form of a jump through a register, 2 bytes: taken, the PC is set to the register's value and not advanced; not
taken, it falls through (R32, R236). -/
def jumpForm (taken : Bool) (ra : RegIdx) (s : State) : Host.Outcome State Fault Refusal :=
  if taken then .next (setPc (readReg ra s).toNat s) else .next (advancePc 2 s)

end Sys2Proof.Machine
end

