-- ==== Sys2Proof/Machine/Alu.lean ====
section
/-! DEFINITION. The meanings of the arithmetic, bitwise and shift instructions (42_alu.md). Each computes an exact mathematical integer from unsigned operands; the register write narrows it (R23). -/

namespace Sys2Proof.Machine

/-- ADD ra, rb (R180). -/
def execAdd (ra rb : RegIdx) (s : State) : Host.Outcome State Fault Refusal :=
  binaryForm (fun a b => (a : Int) + b) ra rb s

/-- SUB ra, rb (R183): the exact difference may be negative. -/
def execSub (ra rb : RegIdx) (s : State) : Host.Outcome State Fault Refusal :=
  binaryForm (fun a b => (a : Int) - b) ra rb s

/-- MUL ra, rb (R186): the high 8 bits of the product are lost. -/
def execMul (ra rb : RegIdx) (s : State) : Host.Outcome State Fault Refusal :=
  binaryForm (fun a b => (a : Int) * b) ra rb s

/-- DIV ra, rb (R189): the unsigned quotient, rounded down. -/
def execDiv (ra rb : RegIdx) (s : State) : Host.Outcome State Fault Refusal :=
  dividingForm .div (fun a b => (a / b : Nat)) ra rb s

/-- MOD ra, rb (R192): A - B * floor(A / B). -/
def execMod (ra rb : RegIdx) (s : State) : Host.Outcome State Fault Refusal :=
  dividingForm .mod (fun a b => (a : Int) - b * (a / b : Nat)) ra rb s

/-- AND ra, rb (R195). -/
def execAnd (ra rb : RegIdx) (s : State) : Host.Outcome State Fault Refusal :=
  binaryForm (fun a b => (a &&& b : Nat)) ra rb s

/-- OR ra, rb (R198). -/
def execOr (ra rb : RegIdx) (s : State) : Host.Outcome State Fault Refusal :=
  binaryForm (fun a b => (a ||| b : Nat)) ra rb s

/-- XOR ra, rb (R201). -/
def execXor (ra rb : RegIdx) (s : State) : Host.Outcome State Fault Refusal :=
  binaryForm (fun a b => (a ^^^ b : Nat)) ra rb s

/-- NOT ra (R204): 255 - A, every one of the 8 bits inverted. -/
def execNot (ra : RegIdx) (s : State) : Host.Outcome State Fault Refusal :=
  unaryForm (fun a => 255 - (a : Int)) ra s

/-- SHL ra, rb (R207): A * 2^B with B the whole byte, not reduced modulo 8 (R213). -/
def execShl (ra rb : RegIdx) (s : State) : Host.Outcome State Fault Refusal :=
  binaryForm (fun a b => (a * 2 ^ b : Nat)) ra rb s

/-- SHR ra, rb (R210): floor(A / 2^B), a logical shift, with B the whole byte (R213). -/
def execShr (ra rb : RegIdx) (s : State) : Host.Outcome State Fault Refusal :=
  binaryForm (fun a b => (a / 2 ^ b : Nat)) ra rb s

end Sys2Proof.Machine
end

