-- ==== Sys2Proof/Machine/Flags.lean ====
section
/-! DEFINITION. Every flag computation the spec gives: what CMP writes to FL (43_compare_branch.md R230) and what JEQ and JNE read from it (R250, R251). No other instruction touches FL (R216, R231). -/

namespace Sys2Proof.Machine

/-- The comparison of two unsigned bytes, first against second (R83, R230). -/
def compareFlag (a b : Byte) : Flag :=
  if a.toNat = b.toNat then .equal else if b.toNat < a.toNat then .greater else .less

/-- `taken(JEQ, FL)`: FL = Equal (R251). Unset is not Equal, so before any CMP it is not taken (R250, the spec's choice D11). -/
def jeqTaken (fl : Flag) : Bool := decide (fl = .equal)

/-- `taken(JNE, FL)`: FL is not Equal (R251). Before any CMP it is taken (R250, the spec's choice D11). -/
def jneTaken (fl : Flag) : Bool := !jeqTaken fl

end Sys2Proof.Machine
end

