-- ==== Sys2Proof/Machine/CompareBranch.lean ====
section
/-! DEFINITION. The meanings of CMP, JMP, JEQ and JNE (43_compare_branch.md). -/

namespace Sys2Proof.Machine

/-- CMP ra, rb (R230): the only writer of FL (R231); no register or memory is written. -/
def execCmp (ra rb : RegIdx) (s : State) : Host.Outcome State Fault Refusal :=
  .next (advancePc 3 (setFlag (compareFlag (readReg ra s) (readReg rb s)) s))

/-- JMP ra (R235). -/
def execJmp (ra : RegIdx) (s : State) : Host.Outcome State Fault Refusal :=
  jumpForm true ra s

/-- JEQ ra (R240): FL is read and kept; not taken, ra is not read. -/
def execJeq (ra : RegIdx) (s : State) : Host.Outcome State Fault Refusal :=
  jumpForm (jeqTaken s.fl) ra s

/-- JNE ra (R245). -/
def execJne (ra : RegIdx) (s : State) : Host.Outcome State Fault Refusal :=
  jumpForm (jneTaken s.fl) ra s

end Sys2Proof.Machine
end

