-- ==== Sys2Proof/Machine/DataIoHalt.lean ====
section
/-! DEFINITION. The meanings of LDI, PRN and HLT (40_data_io_halt.md). -/

namespace Sys2Proof.Machine

/-- LDI ra, imm (R120). `LDI R7, imm` sets SP with no StackFault check (R121). -/
def execLdi (ra : RegIdx) (imm : Byte) (s : State) : Host.Outcome State Fault Refusal :=
  .next (advancePc 3 (writeReg ra imm.toNat s))

/-- PRN ra (R124): one output event carrying the byte, complete at once (R125). -/
def execPrn (ra : RegIdx) (s : State) : Host.Outcome State Fault Refusal :=
  .next (advancePc 2 (emit (readReg ra s) s))

/-- HLT (R130): the status becomes Halted and the PC still advances (C4). -/
def execHlt (s : State) : Host.Outcome State Fault Refusal :=
  .next (advancePc 1 (setStatus .halted s))

end Sys2Proof.Machine
end

