-- ==== Sys2Proof/Machine/StackCall.lean ====
section
/-! DEFINITION. The meanings of PUSH, POP, CALL and RET (41_stack_call.md). The check that stops SP leaving 0 to 255 comes before any write (R266). -/

namespace Sys2Proof.Machine

/-- PUSH ra (R150). The register is read before SP moves, so `PUSH R7` stores the old SP (R151). -/
def execPush (ra : RegIdx) (s : State) : Host.Outcome State Fault Refusal :=
  if readSp s = 0 then takeFault (.stackFault .push (readSp s)) s
  else .next (advancePc 2 (pushByte (readReg ra s) s))

/-- POP ra (R155). SP is written first and ra after it, so `POP R7` leaves the popped byte in SP (R157). -/
def execPop (ra : RegIdx) (s : State) : Host.Outcome State Fault Refusal :=
  if readSp s = 255 then takeFault (.stackFault .pop (readSp s)) s
  else .next (advancePc 2 (writeReg ra (stackTop s).toNat (popSp s)))

/-- CALL ra (R160). The return address is pc0 + 2 (R161); one that does not fit a cell is OutOfRange (R164, the spec's
choice D9). The target is read after the push, so `CALL R7` jumps to the new SP (R163, the spec's choice D10). -/
def execCall (ra : RegIdx) (s : State) : Host.Outcome State Fault Refusal :=
  if readSp s = 0 then takeFault (.stackFault .call (readSp s)) s
  else if 255 < s.pc + 2 then takeFault (.outOfRange (.returnAddress (s.pc + 2))) s
  else
    let s' := pushByte (narrow ((s.pc : Int) + 2)) s
    .next (setPc (readReg ra s').toNat s')

/-- RET (R166): pop a byte into the PC, whatever put it there. -/
def execRet (s : State) : Host.Outcome State Fault Refusal :=
  if readSp s = 255 then takeFault (.stackFault .ret (readSp s)) s
  else .next (setPc (stackTop s).toNat (popSp s))

end Sys2Proof.Machine
end

