-- ==== Sys2Proof/Syntax.lean ====
section
/-! DEFINITION. The abstract syntax of the 22 instructions, one constructor per row of spec/opcode_table.json, in the order of 30_encoding.md R87. A register operand is already checked to lie in 0 to 7 (00_scope.md R12), so it is a `RegIdx`; the operand bytes before that check are `RawInstr` (WellFormed.lean). -/

namespace Sys2Proof

/-- A decoded instruction (R87). `ra` is the register named by the first operand byte, `rb` by the second (R83). -/
inductive Instr where
  /-- LDI ra, imm: load immediate (R120). -/
  | ldi (ra : RegIdx) (imm : Byte)
  /-- PRN ra: print register (R124). -/
  | prn (ra : RegIdx)
  /-- HLT: halt (R130). -/
  | hlt
  /-- PUSH ra: push register (R150). -/
  | push (ra : RegIdx)
  /-- POP ra: pop into register (R155). -/
  | pop (ra : RegIdx)
  /-- CALL ra: call through register (R160). -/
  | call (ra : RegIdx)
  /-- RET: return (R166). -/
  | ret
  /-- ADD ra, rb (R180). -/
  | add (ra rb : RegIdx)
  /-- SUB ra, rb (R183). -/
  | sub (ra rb : RegIdx)
  /-- MUL ra, rb (R186). -/
  | mul (ra rb : RegIdx)
  /-- DIV ra, rb (R189). -/
  | div (ra rb : RegIdx)
  /-- MOD ra, rb (R192). -/
  | mod (ra rb : RegIdx)
  /-- AND ra, rb (R195). -/
  | and (ra rb : RegIdx)
  /-- OR ra, rb (R198). -/
  | or (ra rb : RegIdx)
  /-- XOR ra, rb (R201). -/
  | xor (ra rb : RegIdx)
  /-- NOT ra (R204). -/
  | not (ra : RegIdx)
  /-- SHL ra, rb: shift left by the value of rb (R207). -/
  | shl (ra rb : RegIdx)
  /-- SHR ra, rb: logical shift right by the value of rb (R210). -/
  | shr (ra rb : RegIdx)
  /-- CMP ra, rb: compare (R230). -/
  | cmp (ra rb : RegIdx)
  /-- JMP ra: jump through register (R235). -/
  | jmp (ra : RegIdx)
  /-- JEQ ra: jump if FL = Equal (R240). -/
  | jeq (ra : RegIdx)
  /-- JNE ra: jump if FL is not Equal (R245). -/
  | jne (ra : RegIdx)
  deriving DecidableEq, Repr

end Sys2Proof
end

