-- ==== Sys2Proof/WellFormed.lean ====
section
/-! DEFINITION. The four formats (30_encoding.md R81), the format of each mnemonic (R87), and when an encoded instruction is well formed: as many operand bytes as its format has (R97) and every register operand byte at most 7 (R96). `Instr` is well formed by its type; `RawInstr` is the instruction before the check. -/

namespace Sys2Proof

/-- What an operand byte is: a register index or an immediate value (R82: "There are no other operand kinds"). -/
inductive OperandKind where
  | reg | imm
  deriving DecidableEq, Repr

/-- The instruction formats (R81). -/
inductive Format where
  | n | r | rr | ri
  deriving DecidableEq, Repr

/-- The operand bytes of a format, in the order they stand after the opcode (R81, R83). -/
def Format.kinds : Format → List OperandKind
  | .n  => []
  | .r  => [.reg]
  | .rr => [.reg, .reg]
  | .ri => [.reg, .imm]

/-- The format of each instruction (R81, R87). -/
def Mnemonic.format : Mnemonic → Format
  | .ldi => .ri
  | .hlt => .n | .ret => .n
  | .prn => .r | .push => .r | .pop => .r | .call => .r | .not => .r | .jmp => .r | .jeq => .r | .jne => .r
  | .add => .rr | .sub => .rr | .mul => .rr | .div => .rr | .mod => .rr | .and => .rr | .or => .rr | .xor => .rr
  | .shl => .rr | .shr => .rr | .cmp => .rr

/-- The length in bytes, opcode included: "a fixed property of the opcode" (R80, R94). -/
def Mnemonic.length (m : Mnemonic) : Nat := m.format.kinds.length + 1

/-- An instruction as its mnemonic and its operand bytes, before the register check: R80's "encoded tuple". -/
structure RawInstr where
  mnemonic : Mnemonic
  operands : List Byte
  deriving DecidableEq, Repr

/-- May this byte stand as an operand of this kind? A register byte of 8 to 255 may not, an immediate always may (R93). -/
def OperandKind.admits : OperandKind → Byte → Bool
  | .reg, b => decide (b.toNat ≤ 7)
  | .imm, _ => true

/-- The check: the operand count is the format's, and each operand byte is legal for its kind (R93, R96, R97). -/
def RawInstr.wellFormed (r : RawInstr) : Bool :=
  (r.operands.length == r.mnemonic.format.kinds.length) &&
    (r.mnemonic.format.kinds.zip r.operands).all (fun ko => ko.1.admits ko.2)

end Sys2Proof
end

