-- ==== Sys2Proof/Decode.lean ====
section
/-! DEFINITION. The decoder (30_encoding.md R80 to R100), total on any bytes and rejecting by name, and the encoder. Both take `OPCODE_MAP` as an argument (R84: "A model takes `OPCODE_MAP` as an argument"); `decode` and `encode` are the two at the default map of R88. -/

namespace Sys2Proof

/-- The default `OPCODE_MAP` (R88): the LS-8 bytes. PRESUMED, unsafe: the source names no opcode byte (R84, N2, D1), and the
spec supplies these from general knowledge (G3). See notes/assumptions/1.md. -/
def opcodeMap : Mnemonic → Byte
  | .hlt  => 0x01
  | .ret  => 0x11
  | .push => 0x45
  | .pop  => 0x46
  | .prn  => 0x47
  | .call => 0x50
  | .jmp  => 0x54
  | .jeq  => 0x55
  | .jne  => 0x56
  | .not  => 0x69
  | .ldi  => 0x82
  | .add  => 0xA0
  | .sub  => 0xA1
  | .mul  => 0xA2
  | .div  => 0xA3
  | .mod  => 0xA4
  | .cmp  => 0xA7
  | .and  => 0xA8
  | .or   => 0xAA
  | .xor  => 0xAB
  | .shl  => 0xAC
  | .shr  => 0xAD

/-- Every mnemonic: the rows of the dispatch table (R86, R87). -/
def allMnemonics : List Mnemonic :=
  [.ldi, .prn, .hlt, .push, .pop, .call, .ret, .add, .sub, .mul, .div, .mod, .and, .or, .xor, .not, .shl, .shr, .cmp, .jmp, .jeq, .jne]

/-- Why bytes are no instruction. -/
inductive DecodeError where
  /-- Byte `k` of the instruction is not there (k = 0: the opcode itself). The fetch turns it into OutOfRange(Fetch) (R101). -/
  | missingByte (k : Nat)
  /-- The opcode byte has no row in the map (R90). -/
  | unsupportedOpcode (code : Byte)
  /-- A register operand byte is above 7 (R96). -/
  | registerOutOfRange (index : Byte)
  deriving DecidableEq, Repr

/-- The row the whole opcode byte selects, if any: the inverse of the map (R85). -/
def lookupOpcode (map : Mnemonic → Byte) (code : Byte) : Option Mnemonic :=
  allMnemonics.find? (fun m => map m == code)

/-- A register operand is the whole byte, legal only when it is 0 to 7; no bit is masked or ignored (R82, R96). -/
def regOperand (b : Byte) : Except DecodeError RegIdx :=
  if h : b.toNat < 8 then .ok ⟨b.toNat, h⟩ else .error (.registerOutOfRange b)

/-- Format N: no operand byte is read (R81, R97). -/
def decodeN (i : Instr) (bs : List Byte) : Except DecodeError (Instr × List Byte) := .ok (i, bs)

/-- Format R: one register operand (R81). -/
def decodeR (mk : RegIdx → Instr) : List Byte → Except DecodeError (Instr × List Byte)
  | [] => .error (.missingByte 1)
  | a :: bs =>
    match regOperand a with
    | .error e => .error e
    | .ok ra => .ok (mk ra, bs)

/-- Format RR: two register operands; both bytes are there before either is checked, then a is checked before b (R81, R99). -/
def decodeRR (mk : RegIdx → RegIdx → Instr) : List Byte → Except DecodeError (Instr × List Byte)
  | [] => .error (.missingByte 1)
  | [_] => .error (.missingByte 2)
  | a :: b :: bs =>
    match regOperand a with
    | .error e => .error e
    | .ok ra =>
      match regOperand b with
      | .error e => .error e
      | .ok rb => .ok (mk ra rb, bs)

/-- Format RI: a register operand and an immediate byte, which has no illegal value (R81, R93). -/
def decodeRI (mk : RegIdx → Byte → Instr) : List Byte → Except DecodeError (Instr × List Byte)
  | [] => .error (.missingByte 1)
  | [_] => .error (.missingByte 2)
  | a :: imm :: bs =>
    match regOperand a with
    | .error e => .error e
    | .ok ra => .ok (mk ra imm, bs)

/-- The operands of the row a mnemonic names (R81, R87). -/
def decodeOperands : Mnemonic → List Byte → Except DecodeError (Instr × List Byte)
  | .ldi,  bs => decodeRI .ldi bs
  | .prn,  bs => decodeR .prn bs
  | .hlt,  bs => decodeN .hlt bs
  | .push, bs => decodeR .push bs
  | .pop,  bs => decodeR .pop bs
  | .call, bs => decodeR .call bs
  | .ret,  bs => decodeN .ret bs
  | .add,  bs => decodeRR .add bs
  | .sub,  bs => decodeRR .sub bs
  | .mul,  bs => decodeRR .mul bs
  | .div,  bs => decodeRR .div bs
  | .mod,  bs => decodeRR .mod bs
  | .and,  bs => decodeRR .and bs
  | .or,   bs => decodeRR .or bs
  | .xor,  bs => decodeRR .xor bs
  | .not,  bs => decodeR .not bs
  | .shl,  bs => decodeRR .shl bs
  | .shr,  bs => decodeRR .shr bs
  | .cmp,  bs => decodeRR .cmp bs
  | .jmp,  bs => decodeR .jmp bs
  | .jeq,  bs => decodeR .jeq bs
  | .jne,  bs => decodeR .jne bs

/-- The decoder under a given map: opcode, then its row, then that row's operands, in the order of R99 stages 1 to 4; what
follows the instruction is handed back. -/
def decodeWith (map : Mnemonic → Byte) : List Byte → Except DecodeError (Instr × List Byte)
  | [] => .error (.missingByte 0)
  | code :: bs =>
    match lookupOpcode map code with
    | none => .error (.unsupportedOpcode code)
    | some m => decodeOperands m bs

/-- The decoder under the default map (R88). -/
def decode (bs : List Byte) : Except DecodeError (Instr × List Byte) := decodeWith opcodeMap bs

/-- The row an instruction belongs to (R87). -/
def Instr.mnemonic : Instr → Mnemonic
  | .ldi _ _ => .ldi | .prn _ => .prn | .hlt => .hlt | .push _ => .push | .pop _ => .pop | .call _ => .call | .ret => .ret
  | .add _ _ => .add | .sub _ _ => .sub | .mul _ _ => .mul | .div _ _ => .div | .mod _ _ => .mod
  | .and _ _ => .and | .or _ _ => .or | .xor _ _ => .xor | .not _ => .not | .shl _ _ => .shl | .shr _ _ => .shr
  | .cmp _ _ => .cmp | .jmp _ => .jmp | .jeq _ => .jeq | .jne _ => .jne

/-- The operand byte of a register: its index as a whole byte (R82). -/
def regByte (r : RegIdx) : Byte := BitVec.ofNat 8 r.val

/-- The operand bytes of an instruction, in address order (R81, R83). -/
def Instr.operandBytes : Instr → List Byte
  | .ldi ra imm => [regByte ra, imm]
  | .hlt => []
  | .ret => []
  | .prn ra => [regByte ra] | .push ra => [regByte ra] | .pop ra => [regByte ra] | .call ra => [regByte ra]
  | .not ra => [regByte ra] | .jmp ra => [regByte ra] | .jeq ra => [regByte ra] | .jne ra => [regByte ra]
  | .add ra rb => [regByte ra, regByte rb] | .sub ra rb => [regByte ra, regByte rb] | .mul ra rb => [regByte ra, regByte rb]
  | .div ra rb => [regByte ra, regByte rb] | .mod ra rb => [regByte ra, regByte rb] | .and ra rb => [regByte ra, regByte rb]
  | .or ra rb => [regByte ra, regByte rb] | .xor ra rb => [regByte ra, regByte rb] | .shl ra rb => [regByte ra, regByte rb]
  | .shr ra rb => [regByte ra, regByte rb] | .cmp ra rb => [regByte ra, regByte rb]

/-- An instruction as its encoded tuple without the opcode byte's value (R80). -/
def Instr.toRaw (i : Instr) : RawInstr := ⟨i.mnemonic, i.operandBytes⟩

/-- How many bytes an instruction takes (R80, R87). -/
def Instr.length (i : Instr) : Nat := i.mnemonic.length

/-- The encoder under a given map: the opcode byte, then the operand bytes (R80, R81). -/
def encodeWith (map : Mnemonic → Byte) (i : Instr) : List Byte := map i.mnemonic :: i.operandBytes

/-- The encoder under the default map (R88). -/
def encode (i : Instr) : List Byte := encodeWith opcodeMap i

/-- The three bytes, in address order, of an instruction whose bits are `w`, bit 0 the least significant bit of the first
byte; bits from `nbits` up are 0. Three bytes is the longest instruction (R80). -/
def tableBytes (nbits w : Nat) : List Byte :=
  let v := w % 2 ^ nbits
  [BitVec.ofNat 8 v, BitVec.ofNat 8 (v / 2 ^ 8), BitVec.ofNat 8 (v / 2 ^ 16)]

/-- What the decoder reads from an instruction whose bits are `w`, numbered as spec/opcode_table.json numbers them. -/
def decodeTableWord (nbits w : Nat) : Option Instr :=
  match decode (tableBytes nbits w) with
  | .ok (i, _) => some i
  | .error _ => none

end Sys2Proof
end

