-- ==== Sys2Proof/Machine/Fetch.lean ====
section
/-! DEFINITION. The fetch unit (30_encoding.md R95 to R101): the bytes at the PC, what the decoder makes of them, and the fault each rejection is. -/

namespace Sys2Proof.Machine

/-- Up to `n` bytes from address `a` up; an address above 255 does not exist and ends the list (R50, R101). -/
def fetchBytes (s : State) : Nat → Nat → List Byte
  | 0, _ => []
  | n + 1, a => if a ≤ 255 then memRead (BitVec.ofNat 8 a) s :: fetchBytes s n (a + 1) else []

/-- The bytes at PC, PC+1, PC+2 that exist (R80). The decoder takes from them exactly the bytes the instruction has (R97);
reads have no side effects (R58), so bytes it does not take have no effect (notes/assumptions/6.md). -/
def fetchWindow (s : State) : List Byte := fetchBytes s 3 s.pc

/-- The fault a rejected fetch or decode is, at pc0 (R90, R96, R99, R101). -/
def decodeFault (pc0 : Nat) : DecodeError → CoreFault
  | .missingByte k => .outOfRange (.fetch (pc0 + k))
  | .unsupportedOpcode code => .unsupportedOpcode code
  | .registerOutOfRange index => .outOfRange (.register index)

/-- Fetch and decode at the PC under a given `OPCODE_MAP` (R84, R100). -/
def fetchWith (map : Mnemonic → Byte) (s : State) : Except CoreFault Instr :=
  match decodeWith map (fetchWindow s) with
  | .ok (i, _) => .ok i
  | .error e => .error (decodeFault s.pc e)

/-- Where `placeWord` puts an instruction: at the PC where three bytes fit, else at the start PC. -/
def placePc (s : State) : Nat := if s.pc ≤ 253 then s.pc else Config.pcReset

/-- Place bytes where the next step fetches, and let the core run: what the host's Load and Start do (R293, R296). -/
def placeBytes (bs : List Byte) (s : State) : State :=
  setStatus .running (setPc (placePc s) { s with mem := s.mem.writeList (placePc s) bs })

end Sys2Proof.Machine
end

