-- ==== Sys2Proof/Machine/HostPort.lean ====
section
/-! DEFINITION. The host's interactions with the core (70_reset_and_hazards.md R290 to R305) at the transaction level of R300: Reset, Load, Start and Observe as a function of a command and a state; the status interface (60_exceptions.md R261, R268); and the text of the output (R126, R305). -/

namespace Sys2Proof.Machine

/-- What the host may ask to see (R300, Observe). -/
inductive Query where
  | reg (r : RegIdx)
  | cell (a : Byte)
  | pc
  | fl
  | status
  deriving DecidableEq, Repr

/-- What the host sees. -/
inductive Observed where
  | byte (v : Byte)
  | pc (v : Nat)
  | flag (v : Flag)
  | status (v : Status)
  deriving DecidableEq, Repr

/-- What the host sends (R300). The Output interaction is the core's own, at each PRN (R125): it is `State.out`. -/
inductive HostCommand where
  | reset
  | load (p : List Byte)
  | start
  | observe (q : Query)
  deriving DecidableEq, Repr

/-- What the host gets back (R300). -/
inductive HostReply where
  /-- The command has had its effect. -/
  | ok
  /-- A load of more than 256 bytes, with its length: no byte was written (R270, R294). -/
  | programTooLarge (length : Nat)
  /-- The command is not allowed in this status: nothing happened (R295, R296, R300). -/
  | refused
  /-- A start while Running has no effect (R296). -/
  | noEffect
  /-- The value observed. -/
  | value (o : Observed)
  deriving DecidableEq, Repr

/-- Load (R293 to R295): the length is checked before any write; memory is all it writes. -/
def hostLoad (p : List Byte) (s : State) : HostReply × State :=
  match s.status with
  | .running => (.refused, s)
  | .idle | .halted | .faulted _ _ =>
    if Config.maxProgram < p.length then (.programTooLarge p.length, s)
    else (.ok, { s with mem := s.mem.writeList Config.loadBase p })

/-- Start (R296, R297): status Running and PC 0, nothing else; refused in Faulted until a reset. -/
def hostStart (s : State) : HostReply × State :=
  match s.status with
  | .idle | .halted => (.ok, setStatus .running (setPc Config.pcReset s))
  | .running => (.noEffect, s)
  | .faulted _ _ => (.refused, s)

/-- The value a query names (R300). Every register is specified from reset on (notes/assumptions/2.md). -/
def observed (q : Query) (s : State) : Observed :=
  match q with
  | .reg r => .byte (readReg r s)
  | .cell a => .byte (memRead a s)
  | .pc => .pc s.pc
  | .fl => .flag s.fl
  | .status => .status s.status

/-- Observe (R300): only while the core is not Running; reads only. -/
def hostObserve (q : Query) (s : State) : HostReply × State :=
  match s.status with
  | .running => (.refused, s)
  | .idle | .halted | .faulted _ _ => (.value (observed q s), s)

/-- One host interaction, between two instructions (R300, R302). Reset is allowed in every status and clears a fault
(R290). -/
def hostCommand (c : HostCommand) (s : State) : HostReply × State :=
  match c with
  | .reset => (.ok, State.reset)
  | .load p => hostLoad p s
  | .start => hostStart s
  | .observe q => hostObserve q s

/-- The number of a fault kind on the status interface (R261, D12). -/
def faultCode : CoreFault → Nat
  | .outOfRange _ => 1
  | .stackFault _ _ => 2
  | .unsupportedOpcode _ => 3
  | .divideByZero _ => 4

/-- The fault code the core presents: 0 means "no fault" (R261, R268). -/
def statusCode : Status → Nat
  | .idle => 0
  | .running => 0
  | .halted => 0
  | .faulted f _ => faultCode f

/-- The number a reply to a load carries: 5 is ProgramTooLarge (R261, R270). -/
def replyCode : HostReply → Nat
  | .ok => 0
  | .programTooLarge _ => 5
  | .refused => 0
  | .noEffect => 0
  | .value _ => 0

/-- A decimal digit as its ASCII byte. -/
def digitByte (d : Nat) : Byte := BitVec.ofNat 8 (48 + d)

/-- The decimal text of a byte: unsigned, no leading zeros, 0 is `0` (R126). -/
def decimalText (v : Byte) : List Byte :=
  if v.toNat < 10 then [digitByte v.toNat]
  else if v.toNat < 100 then [digitByte (v.toNat / 10), digitByte (v.toNat % 10)]
  else [digitByte (v.toNat / 100), digitByte (v.toNat / 10 % 10), digitByte (v.toNat % 10)]

/-- The text the host renders the output stream as: each value's digits and one line feed, in order (R305). -/
def outputText : List Byte → List Byte
  | [] => []
  | v :: vs => decimalText v ++ Config.lineTerminator :: outputText vs

end Sys2Proof.Machine
end

