-- ==== Sys2Proof/Machine/Cycle.lean ====
section
/-! DEFINITION. The instruction cycle (30_encoding.md R95, R100) with `OPCODE_MAP` as its argument (R84), and the machine with its host under a given map: one move, a step or a host command (70_reset_and_hazards.md R300). -/

namespace Sys2Proof.Machine

/-- One step under a given `OPCODE_MAP` (R84, R100). While the status is Running: fetch and decode at the PC, then execute, or
take the fault that the fetch raises, with nothing else written (R265). In the other statuses no fetch happens and every piece
of state keeps its value (R281, R291): the core waits for the host, and the step changes nothing (notes/assumptions/4.md). -/
def stepWith (map : Mnemonic → Byte) (s : State) : Host.Outcome State Fault Refusal :=
  match s.status with
  | .running =>
    match fetchWith map s with
    | .ok i => exec i s
    | .error f => takeFault f s
  | .idle => .next s
  | .halted => .next s
  | .faulted _ _ => .next s

/-- A move of the machine and its host: a step of the core, or one host command between two steps (R300, R302). -/
inductive Move where
  | step
  | host (c : HostCommand)
  deriving DecidableEq, Repr

/-- What a move does to the state under a given `OPCODE_MAP`; the host's commands do not depend on the map. -/
def advanceWith (map : Mnemonic → Byte) (m : Move) (s : State) : Host.Outcome State Fault Refusal :=
  match m with
  | .step => stepWith map s
  | .host c => .next (hostCommand c s).2

/-- The machine of a given `OPCODE_MAP` (R84) behind the host's interface. `Sys2Proof.core` is the one of the default map. -/
def coreWith (map : Mnemonic → Byte) : Host.Core :=
  { State := State, Fault := Fault, Refusal := Refusal, step := stepWith map, reset := State.reset }

end Sys2Proof.Machine
end

