-- ==== Sys2Proof/Machine/Step.lean ====
section
/-! DEFINITION. The machine of the default OPCODE_MAP (30_encoding.md R88): its step, its move, and the placing of an instruction where the next step fetches. -/

namespace Sys2Proof.Machine

/-- One step of the core under the default map (R88, R100; notes/assumptions/1.md). -/
def step (s : State) : Host.Outcome State Fault Refusal := stepWith opcodeMap s

/-- `s` with the instruction whose bits are `w` placed where the next step fetches, and the core running, so that the next
step runs it: it stands for the host's Load and Start (notes/assumptions/5.md). -/
def State.withFetchWord (s : State) (nbits w : Nat) : State := placeBytes (tableBytes nbits w) s

/-- What a move does to the state under the default map. -/
def advance (m : Move) (s : State) : Host.Outcome State Fault Refusal := advanceWith opcodeMap m s

end Sys2Proof.Machine
end

