-- ==== Sys2Proof/Safety.lean ====
section
/-! DEFINITION. The terms the statements use: what an end of a run is (70_reset_and_hazards.md R303), the frame of an instruction, the register use table (10_state.md R29), the invariant of the machine, and what "equal but for one register or the flag" means. -/

namespace Sys2Proof.Machine

/-- A run has ended: the status is Halted or Faulted (R303). -/
def ended (s : State) : Bool :=
  match s.status with
  | .idle => false
  | .running => false
  | .halted => true
  | .faulted _ _ => true

/-- The frame: every register but those listed, and every byte of memory but those listed, is as before. -/
def Keeps (regs : List RegIdx) (cells : List Byte) (s t : State) : Prop :=
  (∀ r, r ∉ regs → readReg r t = readReg r s) ∧ (∀ a, a ∉ cells → memRead a t = memRead a s)

/-- The registers an instruction reads, given FL (R29): JEQ and JNE read theirs only when taken. -/
def regsRead (fl : Flag) : Instr → List RegIdx
  | .ldi _ _ => []
  | .prn ra => [ra]
  | .hlt => []
  | .push ra => [ra, Config.spIndex]
  | .pop _ => [Config.spIndex]
  | .call ra => [Config.spIndex, ra]
  | .ret => [Config.spIndex]
  | .add ra rb => [ra, rb] | .sub ra rb => [ra, rb] | .mul ra rb => [ra, rb] | .div ra rb => [ra, rb] | .mod ra rb => [ra, rb]
  | .and ra rb => [ra, rb] | .or ra rb => [ra, rb] | .xor ra rb => [ra, rb] | .shl ra rb => [ra, rb] | .shr ra rb => [ra, rb]
  | .not ra => [ra]
  | .cmp ra rb => [ra, rb]
  | .jmp ra => [ra]
  | .jeq ra => if jeqTaken fl then [ra] else []
  | .jne ra => if jneTaken fl then [ra] else []

/-- The registers an instruction may write (R29). -/
def regsWritten : Instr → List RegIdx
  | .ldi ra _ => [ra]
  | .prn _ => [] | .hlt => []
  | .push _ => [Config.spIndex]
  | .pop ra => [Config.spIndex, ra]
  | .call _ => [Config.spIndex]
  | .ret => [Config.spIndex]
  | .add ra _ => [ra] | .sub ra _ => [ra] | .mul ra _ => [ra] | .div ra _ => [ra] | .mod ra _ => [ra]
  | .and ra _ => [ra] | .or ra _ => [ra] | .xor ra _ => [ra] | .shl ra _ => [ra] | .shr ra _ => [ra] | .not ra => [ra]
  | .cmp _ _ => [] | .jmp _ => [] | .jeq _ => [] | .jne _ => []

/-- Equal in everything but register q. -/
def SameButReg (q : RegIdx) (s t : State) : Prop :=
  (∀ r, r ≠ q → readReg r t = readReg r s) ∧ t.pc = s.pc ∧ t.fl = s.fl ∧ t.status = s.status ∧ t.out = s.out ∧ t.mem = s.mem

/-- Equal in everything but FL. -/
def SameButFlag (s t : State) : Prop := setFlag .unset t = setFlag .unset s

/-- A recorded fault fits the state it was taken in (R101, R261, R262): a fetch can only miss address 256; a register index is
above 7; a return address is the 256 of a CALL at 254; a StackFault records SP, 0 for the two that push and 255 for the two
that pop; an unsupported code is no image of the given `OPCODE_MAP`. -/
def FaultFits (map : Mnemonic → Byte) (s : State) : CoreFault → Prop
  | .outOfRange (.fetch addr) => addr = 256
  | .outOfRange (.register index) => 7 < index.toNat
  | .outOfRange (.returnAddress addr) => addr = 256 ∧ s.pc = 254
  | .stackFault .push sp => sp = readSp s ∧ sp = 0
  | .stackFault .call sp => sp = readSp s ∧ sp = 0
  | .stackFault .pop sp => sp = readSp s ∧ sp = 255
  | .stackFault .ret sp => sp = readSp s ∧ sp = 255
  | .unsupportedOpcode code => ∀ m, map m ≠ code
  | .divideByZero _ => True

/-- The invariant under a given `OPCODE_MAP`: memory is in canonical form with every address in 0 to 255 (R20, R50); the PC never exceeds 256 (R31); a
recorded fault is reported at the PC (R264, R265) and fits. -/
def Inv (map : Mnemonic → Byte) (s : State) : Prop :=
  s.mem.wf ∧ s.pc ≤ 256 ∧ ∀ f p, s.status = .faulted f p → p = s.pc ∧ FaultFits map s f

end Sys2Proof.Machine
end

