-- ==== Sys2Proof/Certificates/Slice0/Obligations.lean ====
section
/-! DEFINITION. The statements about the machine, for the provers. Each docstring names the rule or the decision of spec/ that the statement formalises. OBLIGATIONS.json lists them. -/

open Sys2Proof Sys2Proof.Machine

/-! The statements about a step are over `stepWith map`, for every OPCODE_MAP (R84; every injective one where the statement
looks a mnemonic's byte up). `step` is `stepWith opcodeMap`, by RunningStepRunsTheDecodedInstruction. -/

/-! ## Reset and the invariant -/

/-- Reset, from any state, leaves memory all zero, SP = 255, PC = 0, FL = Unset, status Idle and no output (R20 to R41,
R290). Nothing is said about R0 to R6: their value is the model's choice (notes/assumptions/2.md). That the status is Idle is
the spec's choice D4. -/
def Obligations.ResetHoldsTheSpecifiedValues : Prop :=
  ∀ s : State, ∃ t, hostCommand .reset s = (.ok, t) ∧ t = State.reset ∧ (∀ a, memRead a t = 0) ∧ readSp t = 255 ∧ t.pc = 0 ∧
    t.fl = .unset ∧ t.status = .idle ∧ t.out = []

/-- The invariant holds at reset, under every OPCODE_MAP. -/
def Obligations.ResetMeetsInvariant : Prop := ∀ map : Mnemonic → Byte, Inv map State.reset

/-- Every step keeps the invariant: memory stays in canonical form within 256 cells (R20), the PC never exceeds 256 (R31), and
a recorded fault is at the PC and fits the state (R101, R262, R264, R266; D5, D6). For the step of the default map, and for
the step of every map. -/
def Obligations.StepKeepsInvariant : Prop :=
  (∀ s t : State, Inv opcodeMap s → step s = .next t → Inv opcodeMap t) ∧
  (∀ (map : Mnemonic → Byte) (s t : State), Inv map s → stepWith map s = .next t → Inv map t)

/-- Every host command keeps the invariant, under every OPCODE_MAP (R300). -/
def Obligations.HostCommandsKeepInvariant : Prop :=
  ∀ (map : Mnemonic → Byte) (c : HostCommand) (s : State), Inv map s → Inv map (hostCommand c s).2

/-- In canonical form, memories that read alike are equal data. -/
def Obligations.CanonicalMemoriesThatReadAlikeAreEqual : Prop :=
  ∀ m n : Memory, m.wf → n.wf → (∀ a < 256, m.read a = n.read a) → m = n

/-- A step always answers a next state: an instruction completes, a fault is taken (R265), and a stopped core keeps its
state (R281, R291; notes/assumptions/4.md). -/
def Obligations.EveryStepAnswersANextState : Prop :=
  ∀ (map : Mnemonic → Byte) (s : State), ∃ t, stepWith map s = .next t

/-! ## Encoding and the instruction cycle -/

/-- Under every injective OPCODE_MAP (R84), decoding an encoded instruction, whatever bytes follow it, gives it back with
those bytes. -/
def Obligations.DecodeOfEncodeIsTheInstruction : Prop :=
  ∀ (map : Mnemonic → Byte), Function.Injective map → ∀ (i : Instr) (rest : List Byte),
    decodeWith map (encodeWith map i ++ rest) = .ok (i, rest)

/-- Under every OPCODE_MAP, whatever decodes is the encoding of what it decodes to, followed by the bytes handed back: the
decoder takes exactly the bytes the row's length says (R80, R85, R94, R97), and the instruction's bytes are well formed
(R96). -/
def Obligations.DecodedBytesAreTheEncoding : Prop :=
  ∀ (map : Mnemonic → Byte) (bs : List Byte) (i : Instr) (rest : List Byte), decodeWith map bs = .ok (i, rest) →
    bs = encodeWith map i ++ rest ∧ (encodeWith map i).length = i.mnemonic.length ∧ i.toRaw.wellFormed = true

/-- The encoding examples of R105 decode to the instructions they stand for (default map, notes/assumptions/1.md). -/
def Obligations.EncodingExamplesDecode : Prop :=
  decode [0x82, 0x00, 0x08] = .ok (.ldi 0 8, []) ∧ decode [0x47, 0x00] = .ok (.prn 0, []) ∧ decode [0x01] = .ok (.hlt, []) ∧
  decode [0xA0, 0x01, 0x02] = .ok (.add 1 2, []) ∧ decode [0xA7, 0x03, 0x03] = .ok (.cmp 3 3, []) ∧
  decode [0x45, 0x07] = .ok (.push 7, []) ∧ decode [0x50, 0x04] = .ok (.call 4, []) ∧ decode [0x11] = .ok (.ret, []) ∧
  decode [0x69, 0x05] = .ok (.not 5, []) ∧ decode [0x56, 0x06] = .ok (.jne 6, [])

/-- A Running core whose bytes at the PC decode to i steps exactly as exec of i (R95, R100): the step adds nothing. So for
`step`, which is the step of the default map, and for the step of every map. -/
def Obligations.RunningStepRunsTheDecodedInstruction : Prop :=
  (∀ (s : State) (i : Instr) (rest : List Byte), s.status = .running → decode (fetchWindow s) = .ok (i, rest) →
    step s = exec i s) ∧
  (∀ s : State, step s = stepWith opcodeMap s) ∧
  (∀ (map : Mnemonic → Byte) (s : State) (i : Instr) (rest : List Byte), s.status = .running →
    decodeWith map (fetchWindow s) = .ok (i, rest) → stepWith map s = exec i s)

/-- Under every injective OPCODE_MAP, a Running core whose bytes at the PC are that map's encoding of i runs i (R84, R95). -/
def Obligations.EveryMapRunsItsOwnEncodings : Prop :=
  ∀ (map : Mnemonic → Byte), Function.Injective map → ∀ (i : Instr) (rest : List Byte) (s : State), s.status = .running →
    fetchWindow s = encodeWith map i ++ rest → stepWith map s = exec i s

/-- The map matters only through decoding (R84): two cores that are alike but for their map and their memory, each with its own
map's encoding of i at the PC and the same byte at SP, step to states that are alike again, and an address whose byte was the
same in both memories still is. -/
def Obligations.TheMapMattersOnlyThroughDecoding : Prop :=
  ∀ (map₁ map₂ : Mnemonic → Byte), Function.Injective map₁ → Function.Injective map₂ →
    ∀ (i : Instr) (rest₁ rest₂ : List Byte) (s₁ s₂ : State), s₁.status = .running → s₂ = { s₁ with mem := s₂.mem } →
    fetchWindow s₁ = encodeWith map₁ i ++ rest₁ → fetchWindow s₂ = encodeWith map₂ i ++ rest₂ →
    memRead (readSp s₁) s₂ = memRead (readSp s₁) s₁ →
    ∃ t₁ t₂, stepWith map₁ s₁ = .next t₁ ∧ stepWith map₂ s₂ = .next t₂ ∧ t₂ = { t₁ with mem := t₂.mem } ∧
      ∀ a, memRead a s₂ = memRead a s₁ → memRead a t₂ = memRead a t₁

/-- NO FORM SHUT OUT, under every injective OPCODE_MAP: whenever the opcode byte at the PC is the byte of m, all of m's bytes lie in memory and every register
operand byte is at most 7, the step runs an instruction of that mnemonic whose operand bytes are those in memory (R80, R96,
R97, R100). -/
def Obligations.WellFormedBytesInMemoryRun : Prop :=
  ∀ (map : Mnemonic → Byte), Function.Injective map → ∀ (s : State) (m : Mnemonic), s.status = .running →
    s.pc + m.length ≤ 256 → memRead (BitVec.ofNat 8 s.pc) s = map m →
    (RawInstr.mk m (fetchBytes s (m.length - 1) (s.pc + 1))).wellFormed = true →
    ∃ i : Instr, i.toRaw = RawInstr.mk m (fetchBytes s (m.length - 1) (s.pc + 1)) ∧ stepWith map s = exec i s

/-- A core that is not Running fetches nothing and keeps every piece of state (R281, R291; that Idle, Halted and Faulted exist
is the spec's choice D4, D15). -/
def Obligations.StoppedCoreKeepsItsState : Prop :=
  ∀ (map : Mnemonic → Byte) (s : State), s.status ≠ .running → stepWith map s = .next s

/-- A fetch past address 255 is OutOfRange(Fetch) and changes nothing else: a PC above 255 for the opcode; 256 for an operand
byte, under every injective OPCODE_MAP (R33, R101; precise by D5, reported at pc0 by D6). -/
def Obligations.FetchPastMemoryFaults : Prop :=
  (∀ (map : Mnemonic → Byte) (s : State), s.status = .running → 255 < s.pc →
    stepWith map s = .next { s with status := .faulted (.outOfRange (.fetch s.pc)) s.pc }) ∧
  (∀ (map : Mnemonic → Byte), Function.Injective map → ∀ (s : State) (m : Mnemonic), s.status = .running → s.pc ≤ 255 →
    memRead (BitVec.ofNat 8 s.pc) s = map m → 256 < s.pc + m.length →
    stepWith map s = .next { s with status := .faulted (.outOfRange (.fetch 256)) s.pc })

/-- An opcode byte with no row in the OPCODE_MAP given, whichever it is, is UnsupportedOpcode with that byte, and nothing else
changes (R90, R263; precise by D5, at pc0 by D6). -/
def Obligations.UnsupportedOpcodeFaults : Prop :=
  ∀ (map : Mnemonic → Byte) (s : State), s.status = .running → s.pc ≤ 255 →
    (∀ m, map m ≠ memRead (BitVec.ofNat 8 s.pc) s) →
    stepWith map s = .next { s with status := .faulted (.unsupportedOpcode (memRead (BitVec.ofNat 8 s.pc) s)) s.pc }

/-- A register operand byte above 7 is OutOfRange(Register) with that byte, whatever the instruction would do (the spec's
choices D5 to D8), under every injective OPCODE_MAP: byte a first, for every format that has one; byte b of format RR after it. -/
def Obligations.RegisterOperandAboveSevenFaults : Prop :=
  ∀ (map : Mnemonic → Byte), Function.Injective map → ∀ (s : State) (m : Mnemonic), s.status = .running →
    s.pc + m.length ≤ 256 → memRead (BitVec.ofNat 8 s.pc) s = map m →
    (m.format ≠ .n → 7 < (memRead (BitVec.ofNat 8 (s.pc + 1)) s).toNat →
      stepWith map s =
        .next { s with status := .faulted (.outOfRange (.register (memRead (BitVec.ofNat 8 (s.pc + 1)) s))) s.pc }) ∧
    (m.format = .rr → (memRead (BitVec.ofNat 8 (s.pc + 1)) s).toNat ≤ 7 → 7 < (memRead (BitVec.ofNat 8 (s.pc + 2)) s).toNat →
      stepWith map s =
        .next { s with status := .faulted (.outOfRange (.register (memRead (BitVec.ofNat 8 (s.pc + 2)) s))) s.pc })

/-! ## LDI, PRN, HLT -/

/-- LDI: ra := imm, PC + 3, nothing else (R120). ra = R7 sets SP with no check (R121). -/
def Obligations.LdiLoadsImmediate : Prop :=
  ∀ (ra : RegIdx) (imm : Byte) (s : State), ∃ t, exec (.ldi ra imm) s = .next t ∧ readReg ra t = imm ∧ t.pc = s.pc + 3 ∧
    t.fl = s.fl ∧ t.status = s.status ∧ t.out = s.out ∧ Keeps [ra] [] s t

/-- PRN: the register's value is appended to the output, PC + 2, nothing else (R124). -/
def Obligations.PrnAppendsTheRegister : Prop :=
  ∀ (ra : RegIdx) (s : State), ∃ t, exec (.prn ra) s = .next t ∧ t.out = s.out ++ [readReg ra s] ∧ t.pc = s.pc + 2 ∧
    t.fl = s.fl ∧ t.status = s.status ∧ Keeps [] [] s t

/-- HLT: status Halted, PC + 1, nothing else (R130). -/
def Obligations.HltHalts : Prop :=
  ∀ s : State, ∃ t, exec .hlt s = .next t ∧ t.status = .halted ∧ t.pc = s.pc + 1 ∧ t.fl = s.fl ∧ t.out = s.out ∧ Keeps [] [] s t

/-! ## Stack, call and return -/

/-- PUSH with SP above 0: SP falls by 1 and the register's value from before (the old SP for R7, R151) is stored at the new
SP; PC + 2, nothing else (R150). -/
def Obligations.PushStoresBelowSp : Prop :=
  ∀ (ra : RegIdx) (s : State), readSp s ≠ 0 → ∃ t, exec (.push ra) s = .next t ∧
    (pushAddr s).toNat + 1 = (readSp s).toNat ∧ readSp t = pushAddr s ∧ memRead (pushAddr s) t = readReg ra s ∧
    t.pc = s.pc + 2 ∧ t.fl = s.fl ∧ t.status = s.status ∧ t.out = s.out ∧ Keeps [Config.spIndex] [pushAddr s] s t

/-- POP with SP below 255: the byte at SP goes to ra, SP rises by 1 unless ra is R7, which ends as the popped byte (R157); PC
+ 2, the cell is not cleared, nothing else (R155). -/
def Obligations.PopLoadsFromSp : Prop :=
  ∀ (ra : RegIdx) (s : State), readSp s ≠ 255 → ∃ t, exec (.pop ra) s = .next t ∧ readReg ra t = memRead (readSp s) s ∧
    (ra ≠ Config.spIndex → (readSp t).toNat = (readSp s).toNat + 1) ∧
    t.pc = s.pc + 2 ∧ t.fl = s.fl ∧ t.status = s.status ∧ t.out = s.out ∧ Keeps [Config.spIndex, ra] [] s t

/-- CALL with SP above 0 and a return address that fits a cell: pc0 + 2 is stored at the new SP and the PC is set to ra; for
R7 that is the new SP, since the target is read after the push (R160, R161; the R7 case is the spec's choice D10). -/
def Obligations.CallPushesReturnAddressAndJumps : Prop :=
  ∀ (ra : RegIdx) (s : State), readSp s ≠ 0 → s.pc + 2 ≤ 255 → ∃ t, exec (.call ra) s = .next t ∧
    (pushAddr s).toNat + 1 = (readSp s).toNat ∧ readSp t = pushAddr s ∧ (memRead (pushAddr s) t).toNat = s.pc + 2 ∧
    t.pc = (if ra = Config.spIndex then (pushAddr s).toNat else (readReg ra s).toNat) ∧
    t.fl = s.fl ∧ t.status = s.status ∧ t.out = s.out ∧ Keeps [Config.spIndex] [pushAddr s] s t

/-- RET with SP below 255: the PC is set to the byte at SP and SP rises by 1; nothing else (R166). -/
def Obligations.RetPopsThePc : Prop :=
  ∀ s : State, readSp s ≠ 255 → ∃ t, exec .ret s = .next t ∧ t.pc = (memRead (readSp s) s).toNat ∧
    (readSp t).toNat = (readSp s).toNat + 1 ∧ t.fl = s.fl ∧ t.status = s.status ∧ t.out = s.out ∧
    Keeps [Config.spIndex] [] s t

/-- StackFault: PUSH and CALL with SP = 0, POP and RET with SP = 255, before any write (R266, R150, R155, R160, R166; that
nothing at all changes and that it is reported at pc0 are D5, D6). -/
def Obligations.StackFaultsAtTheEnds : Prop :=
  (∀ (ra : RegIdx) (s : State), readSp s = 0 →
    exec (.push ra) s = .next { s with status := .faulted (.stackFault .push 0) s.pc } ∧
    exec (.call ra) s = .next { s with status := .faulted (.stackFault .call 0) s.pc }) ∧
  (∀ (ra : RegIdx) (s : State), readSp s = 255 →
    exec (.pop ra) s = .next { s with status := .faulted (.stackFault .pop 255) s.pc } ∧
    exec .ret s = .next { s with status := .faulted (.stackFault .ret 255) s.pc })

/-- A CALL whose return address does not fit a cell is OutOfRange(ReturnAddress), after the StackFault check; nothing else
changes (the spec's choices D5, D6, D7, D9). -/
def Obligations.CallReturnAddressMustFit : Prop :=
  ∀ (ra : RegIdx) (s : State), readSp s ≠ 0 → 255 < s.pc + 2 →
    exec (.call ra) s = .next { s with status := .faulted (.outOfRange (.returnAddress (s.pc + 2))) s.pc }

/-- PUSH Ri then POP Rj copies Ri to Rj by way of the cell below SP, and leaves SP as it was before the pair when j is not 7;
for i = j that is R156's "restores its original value and leaves Stack Pointer unchanged", R7 included. -/
def Obligations.PushThenPopRestores : Prop :=
  ∀ (ri rj : RegIdx) (s : State), readSp s ≠ 0 → ∃ t u, exec (.push ri) s = .next t ∧ exec (.pop rj) t = .next u ∧
    readReg rj u = readReg ri s ∧ (rj ≠ Config.spIndex ∨ ri = rj → readSp u = readSp s) ∧
    memRead (pushAddr s) u = readReg ri s ∧ (∀ r, r ≠ rj → readReg r u = readReg r s)

/-- CALL stores its own address plus its length, and the RET that follows returns there, with every register as before
(R161). -/
def Obligations.CallThenRetReturns : Prop :=
  ∀ (ra : RegIdx) (s : State), readSp s ≠ 0 → s.pc + 2 ≤ 255 → ∃ t u, exec (.call ra) s = .next t ∧ exec .ret t = .next u ∧
    (memRead (pushAddr s) t).toNat = s.pc + (Instr.call ra).length ∧ u.pc = s.pc + (Instr.call ra).length ∧
    (∀ r, readReg r u = readReg r s)

/-! ## ALU -/

/-- ADD, SUB and MUL store the exact result modulo 256 in ra, PC + 3, no flag, nothing else (R180, R183, R186, R216). -/
def Obligations.AddSubMulWrapModulo256 : Prop :=
  ∀ (ra rb : RegIdx) (s : State),
    (∃ t, exec (.add ra rb) s = .next t ∧
      (readReg ra t).toNat = ((readReg ra s).toNat + (readReg rb s).toNat) % 256 ∧
      t.pc = s.pc + 3 ∧ t.fl = s.fl ∧ t.status = s.status ∧ t.out = s.out ∧ Keeps [ra] [] s t) ∧
    (∃ t, exec (.sub ra rb) s = .next t ∧
      ((readReg ra t).toNat : Int) = ((readReg ra s).toNat - (readReg rb s).toNat : Int) % 256 ∧
      t.pc = s.pc + 3 ∧ t.fl = s.fl ∧ t.status = s.status ∧ t.out = s.out ∧ Keeps [ra] [] s t) ∧
    (∃ t, exec (.mul ra rb) s = .next t ∧
      (readReg ra t).toNat = ((readReg ra s).toNat * (readReg rb s).toNat) % 256 ∧
      t.pc = s.pc + 3 ∧ t.fl = s.fl ∧ t.status = s.status ∧ t.out = s.out ∧ Keeps [ra] [] s t)

/-- DIV and MOD with a divisor that is not 0 store the unsigned quotient rounded down and A - B * floor(A / B) in ra, PC + 3, no
flag, nothing else (R189, R192). -/
def Obligations.DivModCompute : Prop :=
  ∀ (ra rb : RegIdx) (s : State), readReg rb s ≠ 0 →
    (∃ t, exec (.div ra rb) s = .next t ∧ (readReg ra t).toNat = (readReg ra s).toNat / (readReg rb s).toNat ∧
      t.pc = s.pc + 3 ∧ t.fl = s.fl ∧ t.status = s.status ∧ t.out = s.out ∧ Keeps [ra] [] s t) ∧
    (∃ t, exec (.mod ra rb) s = .next t ∧
      (readReg ra t).toNat =
        (readReg ra s).toNat - (readReg rb s).toNat * ((readReg ra s).toNat / (readReg rb s).toNat) ∧
      t.pc = s.pc + 3 ∧ t.fl = s.fl ∧ t.status = s.status ∧ t.out = s.out ∧ Keeps [ra] [] s t)

/-- The division laws: for B at least 1, A = B * q + r and r < B, with q what DIV leaves and r what MOD leaves (R215). -/
def Obligations.DivisionLaw : Prop :=
  ∀ (ra rb : RegIdx) (s t u : State), readReg rb s ≠ 0 → exec (.div ra rb) s = .next t → exec (.mod ra rb) s = .next u →
    (readReg ra s).toNat = (readReg rb s).toNat * (readReg ra t).toNat + (readReg ra u).toNat ∧
    (readReg ra u).toNat < (readReg rb s).toNat

/-- DivideByZero is raised by DIV and MOD only, exactly when the divisor register holds 0, and then nothing is written but the
status (R269, R189, R192). That nothing at all but the status changes is the spec's choice D5 and that the PC reported is pc0
its choice D6 (notes/assumptions/7.md). -/
def Obligations.DivideByZeroOnlyByDivAndMod : Prop :=
  (∀ (ra rb : RegIdx) (s : State), readReg rb s = 0 →
    exec (.div ra rb) s = .next { s with status := .faulted (.divideByZero .div) s.pc } ∧
    exec (.mod ra rb) s = .next { s with status := .faulted (.divideByZero .mod) s.pc }) ∧
  (∀ (i : Instr) (s t : State) (op : DivOp) (p : Nat), s.status = .running → exec i s = .next t →
    t.status = .faulted (.divideByZero op) p →
    ∃ ra rb, (i = .div ra rb ∨ i = .mod ra rb) ∧ readReg rb s = 0)

/-- AND, OR and XOR work bit by bit, PC + 3, no flag, nothing else (R195, R198, R201). -/
def Obligations.BitwiseLogicIsPerBit : Prop :=
  ∀ (ra rb : RegIdx) (s : State),
    (∃ t, exec (.and ra rb) s = .next t ∧
      (∀ k, (readReg ra t).getLsbD k = ((readReg ra s).getLsbD k && (readReg rb s).getLsbD k)) ∧
      t.pc = s.pc + 3 ∧ t.fl = s.fl ∧ t.status = s.status ∧ t.out = s.out ∧ Keeps [ra] [] s t) ∧
    (∃ t, exec (.or ra rb) s = .next t ∧
      (∀ k, (readReg ra t).getLsbD k = ((readReg ra s).getLsbD k || (readReg rb s).getLsbD k)) ∧
      t.pc = s.pc + 3 ∧ t.fl = s.fl ∧ t.status = s.status ∧ t.out = s.out ∧ Keeps [ra] [] s t) ∧
    (∃ t, exec (.xor ra rb) s = .next t ∧
      (∀ k, (readReg ra t).getLsbD k = ((readReg ra s).getLsbD k ^^ (readReg rb s).getLsbD k)) ∧
      t.pc = s.pc + 3 ∧ t.fl = s.fl ∧ t.status = s.status ∧ t.out = s.out ∧ Keeps [ra] [] s t)

/-- NOT stores 255 - A, every one of the 8 bits inverted, PC + 2, no flag, nothing else (R204). -/
def Obligations.NotInvertsEveryBit : Prop :=
  ∀ (ra : RegIdx) (s : State), ∃ t, exec (.not ra) s = .next t ∧ (readReg ra t).toNat = 255 - (readReg ra s).toNat ∧
    (∀ k < 8, (readReg ra t).getLsbD k = !(readReg ra s).getLsbD k) ∧
    t.pc = s.pc + 2 ∧ t.fl = s.fl ∧ t.status = s.status ∧ t.out = s.out ∧ Keeps [ra] [] s t

/-- SHL and SHR shift by the whole byte in rb, zeros entering, so a count of 8 or more leaves 0; PC + 3, no flag, nothing else
(R207, R210, R213). -/
def Obligations.ShiftsUseTheWholeCount : Prop :=
  ∀ (ra rb : RegIdx) (s : State),
    (∃ t, exec (.shl ra rb) s = .next t ∧
      (readReg ra t).toNat = ((readReg ra s).toNat * 2 ^ (readReg rb s).toNat) % 256 ∧
      (8 ≤ (readReg rb s).toNat → readReg ra t = 0) ∧
      t.pc = s.pc + 3 ∧ t.fl = s.fl ∧ t.status = s.status ∧ t.out = s.out ∧ Keeps [ra] [] s t) ∧
    (∃ t, exec (.shr ra rb) s = .next t ∧
      (readReg ra t).toNat = (readReg ra s).toNat / 2 ^ (readReg rb s).toNat ∧
      (8 ≤ (readReg rb s).toNat → readReg ra t = 0) ∧
      t.pc = s.pc + 3 ∧ t.fl = s.fl ∧ t.status = s.status ∧ t.out = s.out ∧ Keeps [ra] [] s t)

/-! ## Compare and branch -/

/-- CMP writes FL from the unsigned comparison of ra with rb, PC + 3, no register, nothing else (R230). -/
def Obligations.CmpSetsTheFlag : Prop :=
  ∀ (ra rb : RegIdx) (s : State), ∃ t, exec (.cmp ra rb) s = .next t ∧
    ((readReg ra s).toNat = (readReg rb s).toNat → t.fl = .equal) ∧
    ((readReg rb s).toNat < (readReg ra s).toNat → t.fl = .greater) ∧
    ((readReg ra s).toNat < (readReg rb s).toNat → t.fl = .less) ∧
    t.pc = s.pc + 3 ∧ t.status = s.status ∧ t.out = s.out ∧ Keeps [] [] s t

/-- JMP sets the PC to the register's value, nothing else (R235). -/
def Obligations.JmpSetsThePc : Prop :=
  ∀ (ra : RegIdx) (s : State), ∃ t, exec (.jmp ra) s = .next t ∧ t.pc = (readReg ra s).toNat ∧ t.fl = s.fl ∧
    t.status = s.status ∧ t.out = s.out ∧ Keeps [] [] s t

/-- JEQ jumps when FL = Equal and JNE when it is not; else each falls through to PC + 2. FL is kept, nothing else changes (R240,
R245). That Unset counts as not Equal is the spec's choice D11. -/
def Obligations.ConditionalJumpsReadTheFlag : Prop :=
  ∀ (ra : RegIdx) (s : State),
    (∃ t, exec (.jeq ra) s = .next t ∧ t.pc = (if s.fl = .equal then (readReg ra s).toNat else s.pc + 2) ∧ t.fl = s.fl ∧
      t.status = s.status ∧ t.out = s.out ∧ Keeps [] [] s t) ∧
    (∃ t, exec (.jne ra) s = .next t ∧ t.pc = (if s.fl ≠ .equal then (readReg ra s).toNat else s.pc + 2) ∧ t.fl = s.fl ∧
      t.status = s.status ∧ t.out = s.out ∧ Keeps [] [] s t)

/-! ## Rules of the whole machine -/

/-- A register write stores the value modulo 256, for any mathematical integer, and leaves the rest: the other registers, every
byte of memory, PC, FL, the status and the output (R23). -/
def Obligations.RegisterWritesAreModulo256 : Prop :=
  ∀ (r : RegIdx) (v : Int) (s : State), ((readReg r (writeReg r v s)).toNat : Int) = v % 256 ∧
    Keeps [r] [] s (writeReg r v s) ∧ (writeReg r v s).pc = s.pc ∧ (writeReg r v s).fl = s.fl ∧
    (writeReg r v s).status = s.status ∧ (writeReg r v s).out = s.out

/-- Faults are precise: a step that leaves a Running core Faulted changes nothing but the status, and reports the PC it began
at (R264, R265; the spec's choices D5, D6). -/
def Obligations.FaultingStepChangesOnlyTheStatus : Prop :=
  ∀ (map : Mnemonic → Byte) (s t : State) (f : CoreFault) (p : Nat), s.status = .running → stepWith map s = .next t →
    t.status = .faulted f p →
    p = s.pc ∧ t = { s with status := .faulted f s.pc }

/-- Only these moves change the status: reset (to Idle), the host's start (to Running, from Idle or Halted), HLT (to Halted) and
a fault (to Faulted) (R37). That a start from Faulted is refused, so that Idle and Halted are the statuses before it, is the
spec's choice D15 (R296; notes/assumptions/11.md). -/
def Obligations.StatusChangesOnlyByStartHaltFaultReset : Prop :=
  ∀ (map : Mnemonic → Byte) (mv : Move) (s t : State), advanceWith map mv s = .next t → t.status ≠ s.status →
    (mv = .host .reset ∧ t.status = .idle) ∨
    (mv = .host .start ∧ (s.status = .idle ∨ s.status = .halted) ∧ t.status = .running) ∨
    (mv = .step ∧ s.status = .running ∧ (∃ rest, decodeWith map (fetchWindow s) = .ok (.hlt, rest)) ∧ t.status = .halted) ∨
    (mv = .step ∧ s.status = .running ∧ ∃ f p, t.status = .faulted f p)

/-- CMP is the only writer of FL, JEQ and JNE its only readers, and no instruction tells Greater from Less (R231). -/
def Obligations.OnlyCmpWritesAndJumpsReadTheFlag : Prop :=
  (∀ (i : Instr) (s t : State), exec i s = .next t → t.fl ≠ s.fl → ∃ ra rb, i = .cmp ra rb) ∧
  (∀ (i : Instr) (k : Flag) (s t : State), (∀ ra, i ≠ .jeq ra ∧ i ≠ .jne ra) → exec i s = .next t →
    ∃ t', exec i (setFlag k s) = .next t' ∧ SameButFlag t t') ∧
  (∀ (i : Instr) (s t : State), exec i (setFlag .greater s) = .next t →
    ∃ t', exec i (setFlag .less s) = .next t' ∧ SameButFlag t t')

/-- Once FL is not Unset, no step makes it Unset again (R34). -/
def Obligations.FlagNeverReturnsToUnset : Prop :=
  ∀ (map : Mnemonic → Byte) (s t : State), stepWith map s = .next t → s.fl ≠ .unset → t.fl ≠ .unset

/-- PRN is the only instruction that reaches the output: it appends one byte, every other instruction leaves the stream as it
was (R124, R276). -/
def Obligations.OnlyPrnWritesTheOutput : Prop :=
  ∀ (i : Instr) (s t : State), exec i s = .next t →
    (∃ ra, i = .prn ra ∧ t.out = s.out ++ [readReg ra s]) ∨ ((∀ ra, i ≠ .prn ra) ∧ t.out = s.out)

/-- The only writers of memory are reset, the host's load, and the instructions PUSH and CALL; after reset every cell is 0x00
(R21). -/
def Obligations.OnlyLoadPushAndCallWriteMemory : Prop :=
  (∀ a, memRead a State.reset = 0) ∧
  (∀ (map : Mnemonic → Byte) (mv : Move) (s t : State) (a : Byte), advanceWith map mv s = .next t → memRead a t ≠ memRead a s →
    mv = .host .reset ∨ (∃ p, mv = .host (.load p)) ∨
    (mv = .step ∧ s.status = .running ∧ ∃ i rest, decodeWith map (fetchWindow s) = .ok (i, rest) ∧
      ∃ ra, i = .push ra ∨ i = .call ra))

/-- An instruction writes only the registers of its row in the register use table (R29). -/
def Obligations.RegistersOffTheTableAreKept : Prop :=
  ∀ (i : Instr) (s t : State) (r : RegIdx), exec i s = .next t → r ∉ regsWritten i → readReg r t = readReg r s

/-- A register an instruction does not read has no influence on it: changing that register before changes nothing after, but
for that register itself (R29, the reads column). -/
def Obligations.UnreadRegistersDoNotInfluence : Prop :=
  ∀ (i : Instr) (q : RegIdx) (v : Int) (s t : State), q ∉ regsRead s.fl i → exec i s = .next t →
    ∃ t', exec i (writeReg q v s) = .next t' ∧ SameButReg q t t'

/-- A pushed byte that lands on the next instruction is what the next fetch sees (R63, R309), whichever byte it is and
whichever of the three bytes at the next PC it lands on: the next fetch sees the old bytes with that one replaced, and the next
step runs what they decode to. -/
def Obligations.PushedByteIsFetchedNext : Prop :=
  ∀ (map : Mnemonic → Byte) (ra : RegIdx) (rest : List Byte) (k : Nat) (s : State), s.status = .running →
    decodeWith map (fetchWindow s) = .ok (.push ra, rest) → k < 3 → (readSp s).toNat = s.pc + 3 + k →
    ∃ t, stepWith map s = .next t ∧ t.pc = s.pc + 2 ∧ (fetchWindow t)[k]? = some (readReg ra s) ∧
      fetchWindow t = (fetchBytes s 3 (s.pc + 2)).set k (readReg ra s) ∧
      ∀ (i : Instr) (rest' : List Byte), decodeWith map (fetchWindow t) = .ok (i, rest') → stepWith map t = exec i t

/-! ## The host interface -/

/-- A load of at most 256 bytes, while the core is not Running, writes them from address 0 in order and nothing else (R293). -/
def Obligations.LoadWritesFromAddressZero : Prop :=
  ∀ (p : List Byte) (s : State), s.status ≠ .running → p.length ≤ 256 → ∃ t, hostCommand (.load p) s = (.ok, t) ∧
    (∀ (k : Nat) (h : k < p.length), memRead (BitVec.ofNat 8 k) t = p[k]) ∧
    (∀ a : Byte, p.length ≤ a.toNat → memRead a t = memRead a s) ∧
    t.regs = s.regs ∧ t.pc = s.pc ∧ t.fl = s.fl ∧ t.status = s.status ∧ t.out = s.out

/-- A load of more than 256 bytes is ProgramTooLarge and nothing changes (R270, R294; the spec's choice D14). -/
def Obligations.OversizeLoadChangesNothing : Prop :=
  ∀ (p : List Byte) (s : State), s.status ≠ .running → 256 < p.length →
    hostCommand (.load p) s = (.programTooLarge p.length, s)

/-- While the core is Running the host can neither load nor observe, and a start has no effect; while it is Faulted a start is
refused; an observation never changes anything (the spec's choices D14, D15, D25). -/
def Obligations.HostIsLockedOut : Prop :=
  (∀ (p : List Byte) (q : Query) (s : State), s.status = .running → hostCommand (.load p) s = (.refused, s) ∧
    hostCommand (.observe q) s = (.refused, s) ∧ hostCommand .start s = (.noEffect, s)) ∧
  (∀ (s : State) (f : CoreFault) (p : Nat), s.status = .faulted f p → hostCommand .start s = (.refused, s)) ∧
  (∀ (q : Query) (s : State), (hostCommand (.observe q) s).2 = s)

/-- A start from Idle or Halted sets the status to Running and the PC to 0 and changes nothing else (R296, R297; the spec's
choice D15). -/
def Obligations.StartSetsPcZeroAndRunning : Prop :=
  ∀ s : State, s.status = .idle ∨ s.status = .halted →
    hostCommand .start s = (.ok, { s with status := .running, pc := 0 })

/-- Load then start, under every injective OPCODE_MAP: the first step runs the instruction whose encoding stands first in the
program (R95, R299). -/
def Obligations.LoadedProgramRunsFromItsFirstInstruction : Prop :=
  ∀ (map : Mnemonic → Byte), Function.Injective map → ∀ (i : Instr) (rest : List Byte) (s : State),
    s.status = .idle ∨ s.status = .halted → (encodeWith map i ++ rest).length ≤ 256 →
    ∃ t u, hostCommand (.load (encodeWith map i ++ rest)) s = (.ok, t) ∧ hostCommand .start t = (.ok, u) ∧ u.status = .running ∧
      stepWith map u = exec i u

/-- The text of the output determines the stream: two streams rendered alike are equal (R126, R305; the line feed is the spec's
choice D16). -/
def Obligations.OutputTextDeterminesTheStream : Prop :=
  ∀ xs ys : List Byte, outputText xs = outputText ys → xs = ys
end

