-- ==== Sys2Proof/Laws/Decode.lean ====
section
/-! SUPPORT. What the decoder's parts answer, said once. -/

namespace Sys2Proof

theorem mem_allMnemonics (m : Mnemonic) : m ∈ allMnemonics := by cases m <;> decide

/-- The row found is a row of the byte looked up. -/
theorem lookupOpcode_some {map : Mnemonic → Byte} {code : Byte} {m : Mnemonic} (h : lookupOpcode map code = some m) :
    map m = code := by
  simpa using List.find?_some h

/-- No row is found exactly when the byte is no image of the map (R90). -/
theorem lookupOpcode_none {map : Mnemonic → Byte} {code : Byte} :
    lookupOpcode map code = none ↔ ∀ m, map m ≠ code := by
  simp [lookupOpcode, List.find?_eq_none, mem_allMnemonics]

/-- Under an injective map the byte of a mnemonic finds that mnemonic. -/
theorem lookupOpcode_map {map : Mnemonic → Byte} (hinj : Function.Injective map) (m : Mnemonic) :
    lookupOpcode map (map m) = some m := by
  cases h : lookupOpcode map (map m) with
  | none => exact absurd rfl (lookupOpcode_none.1 h m)
  | some m' => rw [hinj (lookupOpcode_some h)]

/-- The default map is injective, as R84 asks (R88). -/
theorem opcodeMap_injective : Function.Injective opcodeMap := by
  intro a b h
  have ha : lookupOpcode opcodeMap (opcodeMap a) = some a := by cases a <;> decide
  have hb : lookupOpcode opcodeMap (opcodeMap b) = some b := by cases b <;> decide
  rw [h, hb] at ha
  exact (Option.some.inj ha).symm

@[simp] theorem regOperand_regByte (r : RegIdx) : regOperand (regByte r) = .ok r := by
  revert r; decide

theorem regOperand_ok {b : Byte} {r : RegIdx} (h : regOperand b = .ok r) : b = regByte r := by
  unfold regOperand at h
  split at h
  · cases h; apply BitVec.eq_of_toNat_eq; simp [regByte]
  · cases h

theorem regOperand_error {b : Byte} {e : DecodeError} (h : regOperand b = .error e) :
    7 < b.toNat ∧ e = .registerOutOfRange b := by
  unfold regOperand at h
  split at h
  · cases h
  · cases h; exact ⟨by omega, rfl⟩

theorem decodeR_ok {mk : RegIdx → Instr} {bs rest : List Byte} {i : Instr} (h : decodeR mk bs = .ok (i, rest)) :
    ∃ ra, i = mk ra ∧ bs = regByte ra :: rest := by
  unfold decodeR at h
  split at h
  · cases h
  · split at h
    · cases h
    · next ra hra => cases h; exact ⟨ra, rfl, by rw [regOperand_ok hra]⟩

theorem decodeRR_ok {mk : RegIdx → RegIdx → Instr} {bs rest : List Byte} {i : Instr} (h : decodeRR mk bs = .ok (i, rest)) :
    ∃ ra rb, i = mk ra rb ∧ bs = regByte ra :: regByte rb :: rest := by
  unfold decodeRR at h
  split at h
  · cases h
  · cases h
  · split at h
    · cases h
    · next ra hra =>
      split at h
      · cases h
      · next rb hrb => cases h; exact ⟨ra, rb, rfl, by rw [regOperand_ok hra, regOperand_ok hrb]⟩

theorem decodeRI_ok {mk : RegIdx → Byte → Instr} {bs rest : List Byte} {i : Instr} (h : decodeRI mk bs = .ok (i, rest)) :
    ∃ ra imm, i = mk ra imm ∧ bs = regByte ra :: imm :: rest := by
  unfold decodeRI at h
  split at h
  · cases h
  · cases h
  · split at h
    · cases h
    · next ra hra => cases h; exact ⟨ra, _, rfl, by rw [regOperand_ok hra]⟩

end Sys2Proof
end

