-- ==== Sys2Proof/Laws/Memory.lean ====
section
/-! SUPPORT. The laws of memory: a read after a write, and that every operation keeps the canonical form. -/

namespace Sys2Proof.Machine

@[simp] theorem Memory.read_nil (b : Nat) : Memory.read [] b = Memory.unlisted := rfl

theorem Memory.read_erase (m : Memory) (a b : Nat) :
    (m.erase a).read b = if b = a then Memory.unlisted else m.read b := by
  induction m with
  | nil => simp [Memory.erase]
  | cons c m ih =>
    obtain ⟨x, v⟩ := c
    simp only [Memory.erase, List.filter_cons, bne_iff_ne] at ih ⊢
    by_cases hx : x = a
    · subst hx
      by_cases hb : b = x
      · simpa [hb] using ih
      · simp [hb, ih, Memory.read, Ne.symm hb]
    · by_cases hb : x = b
      · subst hb; simp [hx, Memory.read]
      · simp [hx, Memory.read, hb, ih]

theorem Memory.read_insert (m : Memory) (a b : Nat) (v : Byte) (h : ∀ c ∈ m, c.1 ≠ a) :
    (m.insert a v).read b = if b = a then v else m.read b := by
  induction m with
  | nil => simp [Memory.insert, Memory.read, eq_comm]
  | cons c m ih =>
    obtain ⟨x, w⟩ := c
    have hx : x ≠ a := h (x, w) (by simp)
    have ih := ih (fun c hc => h c (by simp [hc]))
    simp only [Memory.insert]
    split
    · simp [Memory.read, eq_comm]
    · simp only [Memory.read, ih]
      by_cases hb : x = b
      · subst hb; simp [hx]
      · simp [hb]

theorem Memory.mem_erase {m : Memory} {a : Nat} {c : Host.Cell} : c ∈ m.erase a ↔ c ∈ m ∧ c.1 ≠ a := by
  simp [Memory.erase]

/-- A read after a write: the value written at that address, what was there elsewhere. -/
@[simp] theorem Memory.read_write (m : Memory) (a b : Nat) (v : Byte) :
    (m.write a v).read b = if b = a then v else m.read b := by
  unfold Memory.write
  split
  · next h => simp [Memory.read_erase, h]
  · rw [Memory.read_insert _ _ _ _ (fun c hc => (Memory.mem_erase.1 hc).2), Memory.read_erase]
    split <;> rfl

theorem Memory.mem_insert {m : Memory} {a : Nat} {v : Byte} {c : Host.Cell} :
    c ∈ m.insert a v ↔ c = (a, v) ∨ c ∈ m := by
  induction m with
  | nil => simp [Memory.insert]
  | cons d m ih =>
    simp only [Memory.insert]
    split
    · simp
    · simp only [List.mem_cons, ih]; tauto

theorem Memory.pairwise_insert {m : Memory} {a : Nat} {v : Byte} (hm : m.Pairwise (fun c d => c.1 < d.1))
    (h : ∀ c ∈ m, c.1 ≠ a) : (m.insert a v).Pairwise (fun c d => c.1 < d.1) := by
  induction m with
  | nil => simp [Memory.insert]
  | cons d m ih =>
    obtain ⟨hd, hm'⟩ := List.pairwise_cons.1 hm
    simp only [Memory.insert]
    have hda : d.1 ≠ a := h d (by simp)
    split
    · refine List.pairwise_cons.2 ⟨fun c hc => ?_, hm⟩
      rcases List.mem_cons.1 hc with rfl | hc
      · simp only; omega
      · have := hd c hc; simp only; omega
    · refine List.pairwise_cons.2 ⟨fun c hc => ?_, ih hm' (fun c hc => h c (by simp [hc]))⟩
      rcases Memory.mem_insert.1 hc with rfl | hc
      · simp only; omega
      · exact hd c hc

/-- A write of an existing cell keeps the canonical form. -/
theorem Memory.wf_write {m : Memory} {a : Nat} {v : Byte} (hm : m.wf) (ha : a < Config.memSize) : (m.write a v).wf := by
  obtain ⟨hp, hc⟩ := hm
  have hpe : (m.erase a).Pairwise (fun c d => c.1 < d.1) := hp.filter _
  unfold Memory.write
  split
  · exact ⟨hpe, fun c h => hc c (Memory.mem_erase.1 h).1⟩
  · next hv =>
    refine ⟨Memory.pairwise_insert hpe (fun c h => (Memory.mem_erase.1 h).2), fun c h => ?_⟩
    rcases Memory.mem_insert.1 h with rfl | h
    · exact ⟨ha, hv⟩
    · exact hc c (Memory.mem_erase.1 h).1

/-- Writing bytes that all fit keeps the canonical form. -/
theorem Memory.wf_writeList {m : Memory} {a : Nat} {p : List Byte} (hm : m.wf) (ha : a + p.length ≤ Config.memSize) :
    (m.writeList a p).wf := by
  induction p generalizing m a with
  | nil => exact hm
  | cons v p ih =>
    simp only [List.length_cons] at ha
    exact ih (Memory.wf_write hm (by omega)) (by omega)

/-- What a read finds after bytes were written from `a` up. -/
theorem Memory.read_writeList (m : Memory) (a b : Nat) (p : List Byte) :
    (m.writeList a p).read b = if h : a ≤ b ∧ b < a + p.length then p[b - a]'(by omega) else m.read b := by
  induction p generalizing m a with
  | nil => simp [Memory.writeList]
  | cons v p ih =>
    rw [Memory.writeList, ih]
    rcases lt_trichotomy b a with h | h | h
    · rw [dif_neg (by omega), dif_neg (by omega)]
      simp [show b ≠ a by omega]
    · subst h
      rw [dif_neg (by omega), dif_pos (by simp)]
      simp
    · by_cases hb : b < a + 1 + p.length
      · rw [dif_pos (by omega), dif_pos (by simp; omega)]
        obtain ⟨k, rfl⟩ : ∃ k, b = a + 1 + k := ⟨b - (a + 1), by omega⟩
        simp [show a + 1 + k - a = k + 1 by omega]
      · rw [dif_neg (by omega), dif_neg (by simp; omega)]
        simp [show b ≠ a by omega]

/-- In canonical form, a cell that is listed reads as its entry. -/
theorem Memory.read_of_mem {m : Memory} (hm : m.Pairwise (fun c d => c.1 < d.1)) {c : Host.Cell} (hc : c ∈ m) :
    m.read c.1 = c.2 := by
  induction m with
  | nil => cases hc
  | cons d m ih =>
    obtain ⟨hd, hm'⟩ := List.pairwise_cons.1 hm
    obtain ⟨x, w⟩ := d
    rcases List.mem_cons.1 hc with rfl | hc
    · simp [Memory.read]
    · have := hd c hc
      have hne : x ≠ c.1 := by simp only at this; omega
      simp [Memory.read, hne, ih hm' hc]

/-- An address that is not listed reads as unlisted. -/
theorem Memory.read_of_not_mem {m : Memory} {a : Nat} (h : ∀ c ∈ m, c.1 ≠ a) : m.read a = Memory.unlisted := by
  induction m with
  | nil => rfl
  | cons d m ih =>
    obtain ⟨x, w⟩ := d
    have hx : x ≠ a := h (x, w) (by simp)
    simp [Memory.read, hx, ih (fun c hc => h c (by simp [hc]))]

end Sys2Proof.Machine
end

