-- ==== Sys2Proof/Laws/State.lean ====
section
/-! SUPPORT. One lemma per field of State per named update (Machine/Ops.lean), so that no proof unfolds a record update. -/

namespace Sys2Proof.Machine

@[simp] theorem writeReg_pc (r : RegIdx) (v : Int) (s : State) : (writeReg r v s).pc = s.pc := rfl
@[simp] theorem writeReg_fl (r : RegIdx) (v : Int) (s : State) : (writeReg r v s).fl = s.fl := rfl
@[simp] theorem writeReg_status (r : RegIdx) (v : Int) (s : State) : (writeReg r v s).status = s.status := rfl
@[simp] theorem writeReg_out (r : RegIdx) (v : Int) (s : State) : (writeReg r v s).out = s.out := rfl
@[simp] theorem writeReg_mem (r : RegIdx) (v : Int) (s : State) : (writeReg r v s).mem = s.mem := rfl

@[simp] theorem memWrite_regs (a v : Byte) (s : State) : (memWrite a v s).regs = s.regs := rfl
@[simp] theorem memWrite_pc (a v : Byte) (s : State) : (memWrite a v s).pc = s.pc := rfl
@[simp] theorem memWrite_fl (a v : Byte) (s : State) : (memWrite a v s).fl = s.fl := rfl
@[simp] theorem memWrite_status (a v : Byte) (s : State) : (memWrite a v s).status = s.status := rfl
@[simp] theorem memWrite_out (a v : Byte) (s : State) : (memWrite a v s).out = s.out := rfl
@[simp] theorem memWrite_mem (a v : Byte) (s : State) : (memWrite a v s).mem = s.mem.write a.toNat v := rfl

@[simp] theorem setPc_regs (n : Nat) (s : State) : (setPc n s).regs = s.regs := rfl
@[simp] theorem setPc_pc (n : Nat) (s : State) : (setPc n s).pc = n := rfl
@[simp] theorem setPc_fl (n : Nat) (s : State) : (setPc n s).fl = s.fl := rfl
@[simp] theorem setPc_status (n : Nat) (s : State) : (setPc n s).status = s.status := rfl
@[simp] theorem setPc_out (n : Nat) (s : State) : (setPc n s).out = s.out := rfl
@[simp] theorem setPc_mem (n : Nat) (s : State) : (setPc n s).mem = s.mem := rfl

@[simp] theorem advancePc_regs (n : Nat) (s : State) : (advancePc n s).regs = s.regs := rfl
@[simp] theorem advancePc_pc (n : Nat) (s : State) : (advancePc n s).pc = s.pc + n := rfl
@[simp] theorem advancePc_fl (n : Nat) (s : State) : (advancePc n s).fl = s.fl := rfl
@[simp] theorem advancePc_status (n : Nat) (s : State) : (advancePc n s).status = s.status := rfl
@[simp] theorem advancePc_out (n : Nat) (s : State) : (advancePc n s).out = s.out := rfl
@[simp] theorem advancePc_mem (n : Nat) (s : State) : (advancePc n s).mem = s.mem := rfl

@[simp] theorem setFlag_regs (k : Flag) (s : State) : (setFlag k s).regs = s.regs := rfl
@[simp] theorem setFlag_pc (k : Flag) (s : State) : (setFlag k s).pc = s.pc := rfl
@[simp] theorem setFlag_fl (k : Flag) (s : State) : (setFlag k s).fl = k := rfl
@[simp] theorem setFlag_status (k : Flag) (s : State) : (setFlag k s).status = s.status := rfl
@[simp] theorem setFlag_out (k : Flag) (s : State) : (setFlag k s).out = s.out := rfl
@[simp] theorem setFlag_mem (k : Flag) (s : State) : (setFlag k s).mem = s.mem := rfl

@[simp] theorem setStatus_regs (st : Status) (s : State) : (setStatus st s).regs = s.regs := rfl
@[simp] theorem setStatus_pc (st : Status) (s : State) : (setStatus st s).pc = s.pc := rfl
@[simp] theorem setStatus_fl (st : Status) (s : State) : (setStatus st s).fl = s.fl := rfl
@[simp] theorem setStatus_status (st : Status) (s : State) : (setStatus st s).status = st := rfl
@[simp] theorem setStatus_out (st : Status) (s : State) : (setStatus st s).out = s.out := rfl
@[simp] theorem setStatus_mem (st : Status) (s : State) : (setStatus st s).mem = s.mem := rfl

@[simp] theorem emit_regs (v : Byte) (s : State) : (emit v s).regs = s.regs := rfl
@[simp] theorem emit_pc (v : Byte) (s : State) : (emit v s).pc = s.pc := rfl
@[simp] theorem emit_fl (v : Byte) (s : State) : (emit v s).fl = s.fl := rfl
@[simp] theorem emit_status (v : Byte) (s : State) : (emit v s).status = s.status := rfl
@[simp] theorem emit_out (v : Byte) (s : State) : (emit v s).out = s.out ++ [v] := rfl
@[simp] theorem emit_mem (v : Byte) (s : State) : (emit v s).mem = s.mem := rfl

@[simp] theorem raiseFault_regs (f : CoreFault) (s : State) : (raiseFault f s).regs = s.regs := rfl
@[simp] theorem raiseFault_pc (f : CoreFault) (s : State) : (raiseFault f s).pc = s.pc := rfl
@[simp] theorem raiseFault_fl (f : CoreFault) (s : State) : (raiseFault f s).fl = s.fl := rfl
@[simp] theorem raiseFault_status (f : CoreFault) (s : State) : (raiseFault f s).status = .faulted f s.pc := rfl
@[simp] theorem raiseFault_out (f : CoreFault) (s : State) : (raiseFault f s).out = s.out := rfl
@[simp] theorem raiseFault_mem (f : CoreFault) (s : State) : (raiseFault f s).mem = s.mem := rfl

/-- Two states are equal when their fields are. -/
theorem State.ext_fields {s t : State} (hr : s.regs = t.regs) (hp : s.pc = t.pc) (hf : s.fl = t.fl) (hs : s.status = t.status)
    (ho : s.out = t.out) (hm : s.mem = t.mem) : s = t := by
  cases s; cases t; simp_all

end Sys2Proof.Machine
end

