-- ==== Sys2Proof/Laws/Ops.lean ====
section
/-! SUPPORT. What each named operation does, said once: narrowing, register and memory reads after writes, the stack primitives, and the operand forms. -/

namespace Sys2Proof.Machine

/-- Narrowing is the value modulo 256 (R23). -/
theorem narrow_toNat (v : Int) : ((narrow v).toNat : Int) = v % 256 := by
  simp [narrow, BitVec.toNat_ofInt]
  omega

@[simp] theorem narrow_ofNat_toNat (b : Byte) : narrow (b.toNat : Int) = b := by
  apply BitVec.eq_of_toNat_eq
  have := narrow_toNat b.toNat
  have := b.isLt
  omega

/-- Narrowing a value that fits keeps it. -/
theorem narrow_toNat_of_lt {n : Nat} (h : n < 256) : (narrow (n : Int)).toNat = n := by
  have := narrow_toNat n
  omega

@[simp] theorem readReg_writeReg (q r : RegIdx) (v : Int) (s : State) :
    readReg q (writeReg r v s) = if q = r then narrow v else readReg q s := by
  unfold readReg writeReg
  by_cases h : q = r
  · subst h; simp
  · rw [if_neg h]
    exact Vector.getElem_set_ne r.isLt q.isLt (fun e => h (Fin.ext e.symm))

@[simp] theorem memRead_memWrite (a b v : Byte) (s : State) :
    memRead b (memWrite a v s) = if b = a then v else memRead b s := by
  simp [memRead, BitVec.toNat_inj]

@[simp] theorem readReg_memWrite (q : RegIdx) (a v : Byte) (s : State) : readReg q (memWrite a v s) = readReg q s := rfl
@[simp] theorem readReg_setPc (q : RegIdx) (n : Nat) (s : State) : readReg q (setPc n s) = readReg q s := rfl
@[simp] theorem readReg_advancePc (q : RegIdx) (n : Nat) (s : State) : readReg q (advancePc n s) = readReg q s := rfl
@[simp] theorem readReg_setFlag (q : RegIdx) (k : Flag) (s : State) : readReg q (setFlag k s) = readReg q s := rfl
@[simp] theorem readReg_setStatus (q : RegIdx) (st : Status) (s : State) : readReg q (setStatus st s) = readReg q s := rfl
@[simp] theorem readReg_emit (q : RegIdx) (v : Byte) (s : State) : readReg q (emit v s) = readReg q s := rfl
@[simp] theorem readReg_raiseFault (q : RegIdx) (f : CoreFault) (s : State) : readReg q (raiseFault f s) = readReg q s := rfl

@[simp] theorem memRead_writeReg (a : Byte) (r : RegIdx) (v : Int) (s : State) : memRead a (writeReg r v s) = memRead a s := rfl
@[simp] theorem memRead_setPc (a : Byte) (n : Nat) (s : State) : memRead a (setPc n s) = memRead a s := rfl
@[simp] theorem memRead_advancePc (a : Byte) (n : Nat) (s : State) : memRead a (advancePc n s) = memRead a s := rfl
@[simp] theorem memRead_setFlag (a : Byte) (k : Flag) (s : State) : memRead a (setFlag k s) = memRead a s := rfl
@[simp] theorem memRead_setStatus (a : Byte) (st : Status) (s : State) : memRead a (setStatus st s) = memRead a s := rfl
@[simp] theorem memRead_emit (a v : Byte) (s : State) : memRead a (emit v s) = memRead a s := rfl
@[simp] theorem memRead_raiseFault (a : Byte) (f : CoreFault) (s : State) : memRead a (raiseFault f s) = memRead a s := rfl

/-- Two states whose registers read alike have equal register files. -/
theorem regs_ext {s t : State} (h : ∀ r, readReg r s = readReg r t) : s.regs = t.regs :=
  Vector.ext fun i hi => h ⟨i, hi⟩

/-- Where a push writes, when SP is not 0: one below SP. -/
theorem pushAddr_toNat {s : State} (h : readSp s ≠ 0) : (pushAddr s).toNat + 1 = (readSp s).toNat := by
  have h0 : (readSp s).toNat ≠ 0 := fun e => h (BitVec.eq_of_toNat_eq (by simpa using e))
  have := narrow_toNat (((readSp s).toNat : Int) - 1)
  have := (readSp s).isLt
  unfold pushAddr
  omega

@[simp] theorem pushByte_pc (v : Byte) (s : State) : (pushByte v s).pc = s.pc := rfl
@[simp] theorem pushByte_fl (v : Byte) (s : State) : (pushByte v s).fl = s.fl := rfl
@[simp] theorem pushByte_status (v : Byte) (s : State) : (pushByte v s).status = s.status := rfl
@[simp] theorem pushByte_out (v : Byte) (s : State) : (pushByte v s).out = s.out := rfl
@[simp] theorem pushByte_mem (v : Byte) (s : State) : (pushByte v s).mem = s.mem.write (pushAddr s).toNat v := rfl
@[simp] theorem readReg_pushByte (q : RegIdx) (v : Byte) (s : State) :
    readReg q (pushByte v s) = if q = Config.spIndex then pushAddr s else readReg q s := by
  simp [pushByte, pushAddr]
@[simp] theorem readSp_pushByte (v : Byte) (s : State) : readSp (pushByte v s) = pushAddr s := by
  simp [readSp]
@[simp] theorem memRead_pushByte (a v : Byte) (s : State) :
    memRead a (pushByte v s) = if a = pushAddr s then v else memRead a s := by
  simp [pushByte]

@[simp] theorem popSp_pc (s : State) : (popSp s).pc = s.pc := rfl
@[simp] theorem popSp_fl (s : State) : (popSp s).fl = s.fl := rfl
@[simp] theorem popSp_status (s : State) : (popSp s).status = s.status := rfl
@[simp] theorem popSp_out (s : State) : (popSp s).out = s.out := rfl
@[simp] theorem popSp_mem (s : State) : (popSp s).mem = s.mem := rfl
@[simp] theorem memRead_popSp (a : Byte) (s : State) : memRead a (popSp s) = memRead a s := rfl
@[simp] theorem readReg_popSp (q : RegIdx) (s : State) :
    readReg q (popSp s) = if q = Config.spIndex then narrow (((readSp s).toNat : Int) + 1) else readReg q s := by
  simp [popSp]

/-- What a pop leaves in SP, when SP is not 255: one above. -/
theorem readSp_popSp {s : State} (h : readSp s ≠ 255) : (readSp (popSp s)).toNat = (readSp s).toNat + 1 := by
  have h0 : (readSp s).toNat ≠ 255 := fun e => h (BitVec.eq_of_toNat_eq (by simpa using e))
  have := narrow_toNat (((readSp s).toNat : Int) + 1)
  have := (readSp s).isLt
  simp only [readSp, readReg_popSp, if_true] at *
  omega

/-- All a dividing form can do: fault on a divisor of 0, else the binary form. -/
theorem dividingForm_cases {name : DivOp} {op : Nat → Nat → Int} {ra rb : RegIdx} {s t : State}
    (h : dividingForm name op ra rb s = .next t) :
    (readReg rb s = 0 ∧ t = raiseFault (.divideByZero name) s) ∨
    (readReg rb s ≠ 0 ∧ t = advancePc 3 (writeReg ra (op (readReg ra s).toNat (readReg rb s).toNat) s)) := by
  unfold dividingForm binaryForm takeFault at h
  split at h
  · next h0 => cases h; exact .inl ⟨h0, rfl⟩
  · next h0 => cases h; exact .inr ⟨h0, rfl⟩

/-- All a jump form can do: set the PC, or fall through. -/
theorem jumpForm_cases {taken : Bool} {ra : RegIdx} {s t : State} (h : jumpForm taken ra s = .next t) :
    (taken = true ∧ t = setPc (readReg ra s).toNat s) ∨ (taken = false ∧ t = advancePc 2 s) := by
  unfold jumpForm at h
  cases taken
  · cases h; exact .inr ⟨rfl, rfl⟩
  · cases h; exact .inl ⟨rfl, rfl⟩

end Sys2Proof.Machine
end

