-- ==== Sys2Proof/Laws/Exec.lean ====
section
/-! SUPPORT. What each meaning answers, as one equation for each of its cases, and what any instruction can do, said once (`exec_cases`). The provers cite these and unfold no meaning. -/

namespace Sys2Proof.Machine

theorem exec_ldi (ra : RegIdx) (imm : Byte) (s : State) : exec (.ldi ra imm) s = .next (advancePc 3 (writeReg ra imm.toNat s)) := rfl
theorem exec_prn (ra : RegIdx) (s : State) : exec (.prn ra) s = .next (advancePc 2 (emit (readReg ra s) s)) := rfl
theorem exec_hlt (s : State) : exec .hlt s = .next (advancePc 1 (setStatus .halted s)) := rfl

theorem exec_push (ra : RegIdx) {s : State} (h : readSp s ≠ 0) :
    exec (.push ra) s = .next (advancePc 2 (pushByte (readReg ra s) s)) := if_neg h
theorem exec_push_fault (ra : RegIdx) {s : State} (h : readSp s = 0) :
    exec (.push ra) s = .next (raiseFault (.stackFault .push (readSp s)) s) := if_pos h

theorem exec_pop (ra : RegIdx) {s : State} (h : readSp s ≠ 255) :
    exec (.pop ra) s = .next (advancePc 2 (writeReg ra (stackTop s).toNat (popSp s))) := if_neg h
theorem exec_pop_fault (ra : RegIdx) {s : State} (h : readSp s = 255) :
    exec (.pop ra) s = .next (raiseFault (.stackFault .pop (readSp s)) s) := if_pos h

theorem exec_call (ra : RegIdx) {s : State} (h : readSp s ≠ 0) (hp : s.pc + 2 ≤ 255) :
    exec (.call ra) s = .next (setPc (readReg ra (pushByte (narrow ((s.pc : Int) + 2)) s)).toNat
      (pushByte (narrow ((s.pc : Int) + 2)) s)) :=
  (if_neg h).trans (if_neg (Nat.not_lt.2 hp))
theorem exec_call_stack_fault (ra : RegIdx) {s : State} (h : readSp s = 0) :
    exec (.call ra) s = .next (raiseFault (.stackFault .call (readSp s)) s) := if_pos h
theorem exec_call_range_fault (ra : RegIdx) {s : State} (h : readSp s ≠ 0) (hp : 255 < s.pc + 2) :
    exec (.call ra) s = .next (raiseFault (.outOfRange (.returnAddress (s.pc + 2))) s) :=
  (if_neg h).trans (if_pos hp)

theorem exec_ret {s : State} (h : readSp s ≠ 255) : exec .ret s = .next (setPc (stackTop s).toNat (popSp s)) := if_neg h
theorem exec_ret_fault {s : State} (h : readSp s = 255) :
    exec .ret s = .next (raiseFault (.stackFault .ret (readSp s)) s) := if_pos h

theorem exec_div {ra rb : RegIdx} {s : State} (h : readReg rb s ≠ 0) :
    exec (.div ra rb) s =
      .next (advancePc 3 (writeReg ra (((readReg ra s).toNat / (readReg rb s).toNat : Nat) : Int) s)) := if_neg h
theorem exec_div_fault {ra rb : RegIdx} {s : State} (h : readReg rb s = 0) :
    exec (.div ra rb) s = .next (raiseFault (.divideByZero .div) s) := if_pos h
theorem exec_mod {ra rb : RegIdx} {s : State} (h : readReg rb s ≠ 0) :
    exec (.mod ra rb) s =
      .next (advancePc 3 (writeReg ra (((readReg ra s).toNat : Int) -
        (readReg rb s).toNat * (((readReg ra s).toNat / (readReg rb s).toNat : Nat) : Int)) s)) := if_neg h
theorem exec_mod_fault {ra rb : RegIdx} {s : State} (h : readReg rb s = 0) :
    exec (.mod ra rb) s = .next (raiseFault (.divideByZero .mod) s) := if_pos h

theorem exec_cmp (ra rb : RegIdx) (s : State) :
    exec (.cmp ra rb) s = .next (advancePc 3 (setFlag (compareFlag (readReg ra s) (readReg rb s)) s)) := rfl
theorem exec_jmp (ra : RegIdx) (s : State) : exec (.jmp ra) s = .next (setPc (readReg ra s).toNat s) := rfl
theorem exec_jeq_taken (ra : RegIdx) {s : State} (h : s.fl = .equal) :
    exec (.jeq ra) s = .next (setPc (readReg ra s).toNat s) := if_pos (by simp [jeqTaken, h])
theorem exec_jeq_not_taken (ra : RegIdx) {s : State} (h : s.fl ≠ .equal) :
    exec (.jeq ra) s = .next (advancePc 2 s) := if_neg (by simp [jeqTaken, h])
theorem exec_jne_taken (ra : RegIdx) {s : State} (h : s.fl ≠ .equal) :
    exec (.jne ra) s = .next (setPc (readReg ra s).toNat s) := if_pos (by simp [jneTaken, jeqTaken, h])
theorem exec_jne_not_taken (ra : RegIdx) {s : State} (h : s.fl = .equal) :
    exec (.jne ra) s = .next (advancePc 2 s) := if_neg (by simp [jneTaken, jeqTaken, h])

/-- When an instruction raises a fault of its own, and which (R99 stage 6). -/
inductive OwnFault (s : State) : Instr → CoreFault → Prop
  | push (ra : RegIdx) (h : readSp s = 0) : OwnFault s (.push ra) (.stackFault .push (readSp s))
  | pop (ra : RegIdx) (h : readSp s = 255) : OwnFault s (.pop ra) (.stackFault .pop (readSp s))
  | callStack (ra : RegIdx) (h : readSp s = 0) : OwnFault s (.call ra) (.stackFault .call (readSp s))
  | callRange (ra : RegIdx) (h : 255 < s.pc + 2) : OwnFault s (.call ra) (.outOfRange (.returnAddress (s.pc + 2)))
  | ret (h : readSp s = 255) : OwnFault s .ret (.stackFault .ret (readSp s))
  | div (ra rb : RegIdx) (h : readReg rb s = 0) : OwnFault s (.div ra rb) (.divideByZero .div)
  | mod (ra rb : RegIdx) (h : readReg rb s = 0) : OwnFault s (.mod ra rb) (.divideByZero .mod)

/-- All an instruction can do when it completes: the shapes of the next state. -/
inductive Effect (s : State) : Instr → State → Prop
  /-- LDI and the ALU: one register written, the PC past the instruction. -/
  | writes (i : Instr) (r : RegIdx) (v : Int) (hr : r ∈ regsWritten i) (hp : ∀ ra, i ≠ .prn ra) :
      Effect s i (advancePc i.length (writeReg r v s))
  | prn (ra : RegIdx) : Effect s (.prn ra) (advancePc 2 (emit (readReg ra s) s))
  | hlt : Effect s .hlt (advancePc 1 (setStatus .halted s))
  | push (ra : RegIdx) (h : readSp s ≠ 0) : Effect s (.push ra) (advancePc 2 (pushByte (readReg ra s) s))
  | pop (ra : RegIdx) (h : readSp s ≠ 255) :
      Effect s (.pop ra) (advancePc 2 (writeReg ra (stackTop s).toNat (popSp s)))
  | call (ra : RegIdx) (target : Byte) (h : readSp s ≠ 0) (hp : s.pc + 2 ≤ 255) :
      Effect s (.call ra) (setPc target.toNat (pushByte (narrow ((s.pc : Int) + 2)) s))
  | ret (h : readSp s ≠ 255) : Effect s .ret (setPc (stackTop s).toNat (popSp s))
  | cmp (ra rb : RegIdx) :
      Effect s (.cmp ra rb) (advancePc 3 (setFlag (compareFlag (readReg ra s) (readReg rb s)) s))
  /-- A jump taken: the PC is a byte. -/
  | jumps (i : Instr) (target : Byte) (hi : ∃ ra, i = .jmp ra ∨ i = .jeq ra ∨ i = .jne ra) : Effect s i (setPc target.toNat s)
  /-- A conditional jump not taken. -/
  | falls (i : Instr) (hi : ∃ ra, i = .jeq ra ∨ i = .jne ra) : Effect s i (advancePc 2 s)

/-- What any instruction can do: raise one of its own faults, with only the status changed, or have its effect. -/
theorem exec_cases {i : Instr} {s t : State} (h : exec i s = .next t) :
    (∃ f, OwnFault s i f ∧ t = raiseFault f s) ∨ Effect s i t := by
  have writes : ∀ {r : RegIdx} {v : Int}, Host.Outcome.next (φ := Fault) (ρ := Refusal) (advancePc i.length (writeReg r v s)) = .next t →
      r ∈ regsWritten i → (∀ ra, i ≠ .prn ra) → Effect s i t := by
    intro r v h hr hp; cases h; exact .writes i r v hr hp
  have own : ∀ {f : CoreFault}, Host.Outcome.next (φ := Fault) (ρ := Refusal) (raiseFault f s) = .next t → OwnFault s i f →
      ∃ f, OwnFault s i f ∧ t = raiseFault f s := by
    intro f h hf; cases h; exact ⟨f, hf, rfl⟩
  cases i with
  | ldi ra imm => exact .inr (writes h (by simp [regsWritten]) (by simp))
  | add ra rb => exact .inr (writes h (by simp [regsWritten]) (by simp))
  | sub ra rb => exact .inr (writes h (by simp [regsWritten]) (by simp))
  | mul ra rb => exact .inr (writes h (by simp [regsWritten]) (by simp))
  | and ra rb => exact .inr (writes h (by simp [regsWritten]) (by simp))
  | or ra rb => exact .inr (writes h (by simp [regsWritten]) (by simp))
  | xor ra rb => exact .inr (writes h (by simp [regsWritten]) (by simp))
  | not ra => exact .inr (writes h (by simp [regsWritten]) (by simp))
  | shl ra rb => exact .inr (writes h (by simp [regsWritten]) (by simp))
  | shr ra rb => exact .inr (writes h (by simp [regsWritten]) (by simp))
  | div ra rb =>
    by_cases h0 : readReg rb s = 0
    · exact .inl (own ((exec_div_fault h0).symm.trans h) (.div ra rb h0))
    · exact .inr (writes ((exec_div h0).symm.trans h) (by simp [regsWritten]) (by simp))
  | mod ra rb =>
    by_cases h0 : readReg rb s = 0
    · exact .inl (own ((exec_mod_fault h0).symm.trans h) (.mod ra rb h0))
    · exact .inr (writes ((exec_mod h0).symm.trans h) (by simp [regsWritten]) (by simp))
  | prn ra => cases h; exact .inr (.prn ra)
  | hlt => cases h; exact .inr .hlt
  | push ra =>
    by_cases h0 : readSp s = 0
    · exact .inl (own ((exec_push_fault ra h0).symm.trans h) (.push ra h0))
    · rw [exec_push ra h0] at h; cases h; exact .inr (.push ra h0)
  | pop ra =>
    by_cases h0 : readSp s = 255
    · exact .inl (own ((exec_pop_fault ra h0).symm.trans h) (.pop ra h0))
    · rw [exec_pop ra h0] at h; cases h; exact .inr (.pop ra h0)
  | call ra =>
    by_cases h0 : readSp s = 0
    · exact .inl (own ((exec_call_stack_fault ra h0).symm.trans h) (.callStack ra h0))
    · by_cases hp : s.pc + 2 ≤ 255
      · rw [exec_call ra h0 hp] at h; cases h; exact .inr (.call ra _ h0 hp)
      · exact .inl (own ((exec_call_range_fault ra h0 (by omega)).symm.trans h) (.callRange ra (by omega)))
  | ret =>
    by_cases h0 : readSp s = 255
    · exact .inl (own ((exec_ret_fault h0).symm.trans h) (.ret h0))
    · rw [exec_ret h0] at h; cases h; exact .inr (.ret h0)
  | cmp ra rb => cases h; exact .inr (.cmp ra rb)
  | jmp ra => cases h; exact .inr (.jumps _ _ ⟨ra, .inl rfl⟩)
  | jeq ra =>
    rcases jumpForm_cases (show jumpForm (jeqTaken s.fl) ra s = .next t from h) with ⟨_, rfl⟩ | ⟨_, rfl⟩
    · exact .inr (.jumps _ _ ⟨ra, .inr (.inl rfl)⟩)
    · exact .inr (.falls _ ⟨ra, .inl rfl⟩)
  | jne ra =>
    rcases jumpForm_cases (show jumpForm (jneTaken s.fl) ra s = .next t from h) with ⟨_, rfl⟩ | ⟨_, rfl⟩
    · exact .inr (.jumps _ _ ⟨ra, .inr (.inr rfl)⟩)
    · exact .inr (.falls _ ⟨ra, .inr rfl⟩)

end Sys2Proof.Machine
end

