-- ==== Sys2Proof/Laws/PerInstr.lean ====
section
/-! SUPPORT. The family `Encoding`: what every instruction's encoded form satisfies, one lemma per constructor. -/

namespace Sys2Proof.Laws

/-- An instruction's encoded tuple passes the well-formedness check, it is as long as its row says, and its operand bytes
decode back to it with nothing left over (R80, R81, R87, R96). -/
def Encoding.Statement (i : Instr) : Prop :=
  i.toRaw.wellFormed = true ∧ (encode i).length = i.length ∧ decodeOperands i.mnemonic i.operandBytes = .ok (i, [])

theorem regByte_le (r : RegIdx) : (regByte r).toNat ≤ 7 := by revert r; decide

theorem Encoding.ldi (ra : RegIdx) (imm : Byte) : Encoding.Statement (.ldi ra imm) := by
  refine ⟨?_, rfl, ?_⟩ <;>
    simp [Instr.toRaw, RawInstr.wellFormed, Instr.mnemonic, Instr.operandBytes, Mnemonic.format, Format.kinds, OperandKind.admits, regByte_le, decodeOperands, decodeRI]

/-- The shape of every one-register instruction. -/
theorem Encoding.oneReg {i : Instr} {ra : RegIdx} {mk : RegIdx → Instr} (hi : mk ra = i) (hm : i.mnemonic.format = .r)
    (hb : i.operandBytes = [regByte ra]) (hd : decodeOperands i.mnemonic [regByte ra] = decodeR mk [regByte ra]) :
    Encoding.Statement i := by
  refine ⟨?_, ?_, ?_⟩
  · simp [Instr.toRaw, RawInstr.wellFormed, hm, hb, Format.kinds, OperandKind.admits, regByte_le]
  · simp [encode, encodeWith, Instr.length, Mnemonic.length, hm, hb, Format.kinds]
  · simp [hb, hd, decodeR, hi]

/-- The shape of every two-register instruction. -/
theorem Encoding.twoReg {i : Instr} {ra rb : RegIdx} {mk : RegIdx → RegIdx → Instr} (hi : mk ra rb = i)
    (hm : i.mnemonic.format = .rr) (hb : i.operandBytes = [regByte ra, regByte rb])
    (hd : decodeOperands i.mnemonic [regByte ra, regByte rb] = decodeRR mk [regByte ra, regByte rb]) :
    Encoding.Statement i := by
  refine ⟨?_, ?_, ?_⟩
  · simp [Instr.toRaw, RawInstr.wellFormed, hm, hb, Format.kinds, OperandKind.admits, regByte_le]
  · simp [encode, encodeWith, Instr.length, Mnemonic.length, hm, hb, Format.kinds]
  · simp [hb, hd, decodeRR, hi]

theorem Encoding.hlt : Encoding.Statement .hlt := ⟨rfl, rfl, rfl⟩
theorem Encoding.ret : Encoding.Statement .ret := ⟨rfl, rfl, rfl⟩
theorem Encoding.prn (ra : RegIdx) : Encoding.Statement (.prn ra) := Encoding.oneReg rfl rfl rfl rfl
theorem Encoding.push (ra : RegIdx) : Encoding.Statement (.push ra) := Encoding.oneReg rfl rfl rfl rfl
theorem Encoding.pop (ra : RegIdx) : Encoding.Statement (.pop ra) := Encoding.oneReg rfl rfl rfl rfl
theorem Encoding.call (ra : RegIdx) : Encoding.Statement (.call ra) := Encoding.oneReg rfl rfl rfl rfl
theorem Encoding.not (ra : RegIdx) : Encoding.Statement (.not ra) := Encoding.oneReg rfl rfl rfl rfl
theorem Encoding.jmp (ra : RegIdx) : Encoding.Statement (.jmp ra) := Encoding.oneReg rfl rfl rfl rfl
theorem Encoding.jeq (ra : RegIdx) : Encoding.Statement (.jeq ra) := Encoding.oneReg rfl rfl rfl rfl
theorem Encoding.jne (ra : RegIdx) : Encoding.Statement (.jne ra) := Encoding.oneReg rfl rfl rfl rfl
theorem Encoding.add (ra rb : RegIdx) : Encoding.Statement (.add ra rb) := Encoding.twoReg rfl rfl rfl rfl
theorem Encoding.sub (ra rb : RegIdx) : Encoding.Statement (.sub ra rb) := Encoding.twoReg rfl rfl rfl rfl
theorem Encoding.mul (ra rb : RegIdx) : Encoding.Statement (.mul ra rb) := Encoding.twoReg rfl rfl rfl rfl
theorem Encoding.div (ra rb : RegIdx) : Encoding.Statement (.div ra rb) := Encoding.twoReg rfl rfl rfl rfl
theorem Encoding.mod (ra rb : RegIdx) : Encoding.Statement (.mod ra rb) := Encoding.twoReg rfl rfl rfl rfl
theorem Encoding.and (ra rb : RegIdx) : Encoding.Statement (.and ra rb) := Encoding.twoReg rfl rfl rfl rfl
theorem Encoding.or (ra rb : RegIdx) : Encoding.Statement (.or ra rb) := Encoding.twoReg rfl rfl rfl rfl
theorem Encoding.xor (ra rb : RegIdx) : Encoding.Statement (.xor ra rb) := Encoding.twoReg rfl rfl rfl rfl
theorem Encoding.shl (ra rb : RegIdx) : Encoding.Statement (.shl ra rb) := Encoding.twoReg rfl rfl rfl rfl
theorem Encoding.shr (ra rb : RegIdx) : Encoding.Statement (.shr ra rb) := Encoding.twoReg rfl rfl rfl rfl
theorem Encoding.cmp (ra rb : RegIdx) : Encoding.Statement (.cmp ra rb) := Encoding.twoReg rfl rfl rfl rfl

end Sys2Proof.Laws
end

