-- ==== Sys2Proof/Laws/Step.lean ====
section
/-! SUPPORT. What the fetch sees and what a step can do, said once. -/

namespace Sys2Proof.Machine

/-- A byte the fetch sees at the PC: there is one when the PC is at most 255. -/
theorem fetchBytes_succ_of_le {s : State} {n a : Nat} (h : a ≤ 255) :
    fetchBytes s (n + 1) a = memRead (BitVec.ofNat 8 a) s :: fetchBytes s n (a + 1) := if_pos h

theorem fetchBytes_of_gt {s : State} {n a : Nat} (h : 255 < a) : fetchBytes s n a = [] := by
  cases n with
  | zero => rfl
  | succ n => exact if_neg (by omega)

/-- The bytes fetched never reach past address 255. -/
theorem fetchBytes_length (s : State) (n a : Nat) (ha : a ≤ 256) : a + (fetchBytes s n a).length ≤ 256 := by
  induction n generalizing a with
  | zero => simpa [fetchBytes]
  | succ n ih =>
    by_cases h : a ≤ 255
    · rw [fetchBytes_succ_of_le h, List.length_cons]
      have := ih (a + 1) (by omega)
      omega
    · rw [fetchBytes_of_gt (by omega)]; simpa

/-- The step and the move of the default map are those of every map, at `opcodeMap`. -/
theorem step_eq_stepWith (s : State) : step s = stepWith opcodeMap s := rfl

theorem advance_eq_advanceWith (m : Move) (s : State) : advance m s = advanceWith opcodeMap m s := rfl

variable {map : Mnemonic → Byte} {s t : State}

/-- A Running core runs what its bytes decode to. -/
theorem stepWith_of_decode {i : Instr} {rest : List Byte} (hs : s.status = .running)
    (hd : decodeWith map (fetchWindow s) = .ok (i, rest)) : stepWith map s = exec i s := by
  simp only [stepWith, fetchWith, hs, hd]

/-- A Running core whose bytes do not decode takes the fault of the rejection. -/
theorem stepWith_of_error {e : DecodeError} (hs : s.status = .running) (hd : decodeWith map (fetchWindow s) = .error e) :
    stepWith map s = .next (raiseFault (decodeFault s.pc e) s) := by
  simp only [stepWith, fetchWith, hs, hd]; rfl

/-- A core that is not Running keeps its state. -/
theorem stepWith_of_stopped (hs : s.status ≠ .running) : stepWith map s = .next s := by
  cases h : s.status with
  | running => exact absurd h hs
  | _ => simp only [stepWith, h]

/-- All a step can do: keep a stopped core's state, run the decoded instruction, or take the fault of a rejected fetch. -/
theorem stepWith_cases (h : stepWith map s = .next t) :
    (s.status ≠ .running ∧ t = s) ∨
    (s.status = .running ∧ ∃ i rest, decodeWith map (fetchWindow s) = .ok (i, rest) ∧ exec i s = .next t) ∨
    (s.status = .running ∧ ∃ e, decodeWith map (fetchWindow s) = .error e ∧ t = raiseFault (decodeFault s.pc e) s) := by
  by_cases hs : s.status = .running
  · cases hd : decodeWith map (fetchWindow s) with
    | error e =>
      rw [stepWith_of_error hs hd] at h
      cases h
      exact .inr (.inr ⟨hs, e, rfl, rfl⟩)
    | ok p => exact .inr (.inl ⟨hs, p.1, p.2, rfl, (stepWith_of_decode hs hd).symm.trans h⟩)
  · rw [stepWith_of_stopped hs] at h
    cases h
    exact .inl ⟨hs, rfl⟩

end Sys2Proof.Machine
end

