-- ==== Sys2Proof/Tests/Slice0.lean ====
section
/-! SUPPORT. Tests whose expected results come from spec/95_test_vectors.md and the rules (each names its vector or rule), the well-formedness smoke tests, and for every statement with hypotheses a witness that meets them. -/

namespace Sys2Proof.Tests
open Sys2Proof Sys2Proof.Machine

/-! ## Small states -/

/-- A Running state: R0, R1, SP, the PC, and bytes from an address up. -/
def st (r0 r1 sp : Byte) (pc : Nat := 0) (a : Nat := 0) (bytes : List Byte := []) : State :=
  { State.reset with regs := #v[r0, r1, 0, 0, 0, 0, 0, sp], pc := pc, status := .running, mem := Memory.writeList [] a bytes }

/-- The next state of an outcome, if it is one. -/
def next? (o : Host.Outcome State Fault Refusal) : Option State :=
  match o with
  | .next t => some t
  | .fault _ => none
  | .refused _ => none

/-- R0 and the PC after an instruction. -/
def r0pc (i : Instr) (s : State) : Option (Byte × Nat) := (next? (exec i s)).map (fun t => (readReg 0 t, t.pc))

/-- A register and the PC after an instruction. -/
def regpc (r : RegIdx) (i : Instr) (s : State) : Option (Byte × Nat) := (next? (exec i s)).map (fun t => (readReg r t, t.pc))

/-- The status and the PC after a step. -/
def stepStatus (s : State) : Option (Status × Nat) := (next? (step s)).map (fun t => (t.status, t.pc))

/-! ## Well-formedness: one ill-formed term per check -/

theorem test_wf_operand_missing : (RawInstr.mk .add [1]).wellFormed = false := by decide
theorem test_wf_operand_too_many : (RawInstr.mk .hlt [0]).wellFormed = false := by decide
theorem test_wf_first_register_above_7 : (RawInstr.mk .prn [8]).wellFormed = false := by decide
theorem test_wf_second_register_above_7 : (RawInstr.mk .add [7, 8]).wellFormed = false := by decide
theorem test_wf_ldi_register_above_7 : (RawInstr.mk .ldi [8, 5]).wellFormed = false := by decide
theorem test_wf_immediate_has_no_bound : (RawInstr.mk .ldi [7, 255]).wellFormed = true := by decide

/-! ## Decoding: every row's word, bit by bit from opcode_table.json and R88 -/

theorem test_decode_ldi : decode [0b10000010, 0b00000010, 0b11001000] = .ok (.ldi 2 200, []) := by rfl
theorem test_decode_prn : decode [0b01000111, 0b00000111] = .ok (.prn 7, []) := by rfl
theorem test_decode_hlt : decode [0b00000001] = .ok (.hlt, []) := by rfl
theorem test_decode_push : decode [0b01000101, 0b00000111] = .ok (.push 7, []) := by rfl
theorem test_decode_pop : decode [0b01000110, 0b00000010] = .ok (.pop 2, []) := by rfl
theorem test_decode_call : decode [0b01010000, 0b00000100] = .ok (.call 4, []) := by rfl
theorem test_decode_ret : decode [0b00010001] = .ok (.ret, []) := by rfl
theorem test_decode_add : decode [0b10100000, 0b00000001, 0b00000010] = .ok (.add 1 2, []) := by rfl
theorem test_decode_sub : decode [0b10100001, 0b00000111, 0b00000001] = .ok (.sub 7 1, []) := by rfl
theorem test_decode_mul : decode [0b10100010, 0b00000000, 0b00000001] = .ok (.mul 0 1, []) := by rfl
theorem test_decode_div : decode [0b10100011, 0b00000100, 0b00000101] = .ok (.div 4 5, []) := by rfl
theorem test_decode_mod : decode [0b10100100, 0b00000110, 0b00000011] = .ok (.mod 6 3, []) := by rfl
theorem test_decode_and : decode [0b10101000, 0b00000011, 0b00000110] = .ok (.and 3 6, []) := by rfl
theorem test_decode_or : decode [0b10101010, 0b00000010, 0b00000001] = .ok (.or 2 1, []) := by rfl
theorem test_decode_xor : decode [0b10101011, 0b00000101, 0b00000100] = .ok (.xor 5 4, []) := by rfl
theorem test_decode_not : decode [0b01101001, 0b00000101] = .ok (.not 5, []) := by rfl
theorem test_decode_shl : decode [0b10101100, 0b00000001, 0b00000000] = .ok (.shl 1 0, []) := by rfl
theorem test_decode_shr : decode [0b10101101, 0b00000000, 0b00000111] = .ok (.shr 0 7, []) := by rfl
theorem test_decode_cmp : decode [0b10100111, 0b00000011, 0b00000010] = .ok (.cmp 3 2, []) := by rfl
theorem test_decode_jmp : decode [0b01010100, 0b00000010] = .ok (.jmp 2, []) := by rfl
theorem test_decode_jeq : decode [0b01010101, 0b00000011] = .ok (.jeq 3, []) := by rfl
theorem test_decode_jne : decode [0b01010110, 0b00000110] = .ok (.jne 6, []) := by rfl
/-- 0x00 is no instruction (V1, R91). -/
theorem test_decode_zero_unsupported : decode [0, 0, 0] = .error (.unsupportedOpcode 0) := by rfl
/-- LDI R8, 5 (V3). -/
theorem test_decode_register_8 : decode [0x82, 8, 5] = .error (.registerOutOfRange 8) := by rfl
/-- Both operand bytes are there before either is checked (R99). -/
theorem test_decode_missing_before_register : decode [0xA0, 9] = .error (.missingByte 2) := by rfl
/-- LDI R0, 8 is 82 00 08 (R105). -/
theorem test_encode_ldi : encode (.ldi 0 8) = [0x82, 0x00, 0x08] := by rfl
/-- The table's bits: bit 0 is the least significant bit of the first byte. -/
theorem test_tableWord_ldi : decodeTableWord 24 0xC80282 = some (.ldi 2 200) := by rfl
/-- Bits above nbits are 0. -/
theorem test_tableWord_opcode_only : decodeTableWord 8 0xC80282 = some (.ldi 0 0) := by rfl

/-! ## One step from reset with a placed instruction -/

theorem test_withFetchWord_ldi :
    (next? (step (State.reset.withFetchWord 24 0xC80282))).map (fun t => (readReg 2 t, t.pc, t.status)) =
      some (200, 3, .running) := by decide
theorem test_withFetchWord_add : stepStatus (State.reset.withFetchWord 24 0xA0) = some (.running, 3) := by decide
/-- After reset the core waits (R291). -/
theorem test_reset_waits : step State.reset = .next State.reset := by rfl

/-! ## The cycle under another map (R84) -/

/-- An injective map other than the default: the table's rows from 100 up. -/
def indexMap (m : Mnemonic) : Byte := BitVec.ofNat 8 (100 + m.ctorIdx)
theorem indexMap_injective : Function.Injective indexMap := by
  intro a b h
  revert h
  cases a <;> cases b <;> decide
/-- The byte of LDI under another map runs LDI there. -/
theorem test_stepWith_other_map :
    (next? (stepWith indexMap (st 0 0 255 0 0 [indexMap .ldi, 2, 200]))).map (fun t => (readReg 2 t, t.pc)) = some (200, 3) := by
  decide
/-- The default map's LDI byte is no opcode under another map (R90). -/
theorem test_stepWith_default_byte_unsupported :
    (next? (stepWith indexMap (st 0 0 255 0 0 [0x82, 2, 200]))).map (fun t => t.status) =
      some (.faulted (.unsupportedOpcode 0x82) 0) := by decide
/-- The host's machine is the one of the default map. -/
theorem test_core_is_default : coreWith opcodeMap = core := rfl

/-! ## Fetch and decode (V1 to V13) -/

theorem test_V1 : stepStatus (st 0 0 255) = some (.faulted (.unsupportedOpcode 0x00) 0, 0) := by decide
theorem test_V4 : stepStatus (st 0 0 255 0 0 [0x82, 0xFF, 0x00]) = some (.faulted (.outOfRange (.register 255)) 0, 0) := by decide
/-- Register check before DivideByZero. -/
theorem test_V6 : stepStatus (st 0 0 255 0 0 [0xA3, 9, 1]) = some (.faulted (.outOfRange (.register 9)) 0, 0) := by decide
/-- An untaken JNE still checks its register. -/
theorem test_V7 : stepStatus { st 0 0 255 0 0 [0x56, 9] with fl := .equal } = some (.faulted (.outOfRange (.register 9)) 0, 0) := by decide
theorem test_V8 : stepStatus (st 0 0 255 256) = some (.faulted (.outOfRange (.fetch 256)) 256, 256) := by decide
theorem test_V9 : stepStatus (st 0 0 255 254 254 [0x82, 0]) = some (.faulted (.outOfRange (.fetch 256)) 254, 254) := by decide
theorem test_V10 : stepStatus (st 0 0 255 255 255 [0x47]) = some (.faulted (.outOfRange (.fetch 256)) 255, 255) := by decide
theorem test_V11 : stepStatus (st 0 0 255 255 255 [0x01]) = some (.halted, 256) := by decide
theorem test_V12 : stepStatus (st 0 0 255 253 253 [0x82, 1, 7]) = some (.running, 256) := by decide
theorem test_V13 : stepStatus (st 0 0 255 0 0 [0x11]) = some (.faulted (.stackFault .ret 255) 0, 0) := by decide

/-! ## LDI, PRN, HLT (V20 to V27) -/

theorem test_V21_ldi : regpc 5 (.ldi 5 255) (st 0 0 255) = some (255, 3) := by decide
theorem test_V22_ldi_sp : regpc 7 (.ldi 7 0) (st 0 0 255) = some (0, 3) := by decide
theorem test_V25_prn_sp : (next? (exec (.prn 7) State.reset)).map (fun t => (t.out, t.pc)) = some ([255], 2) := by decide
theorem test_prn_appends : (next? (exec (.prn 0) { st 8 0 255 with out := [3] })).map (fun t => t.out) = some [3, 8] := by decide
theorem test_V27_hlt : (next? (exec .hlt (st 0 0 255 5))).map (fun t => (t.status, t.pc)) = some (.halted, 6) := by decide

/-! ## Stack, call and return (V30 to V62) -/

theorem test_V31_push : (next? (exec (.push 0) (st 42 0 1))).map (fun t => (t.mem, readSp t, t.pc)) = some ([(0, 42)], 0, 2) := by decide
theorem test_V33_push_sp : (next? (exec (.push 7) (st 0 0 200))).map (fun t => (t.mem, readSp t)) = some ([(199, 200)], 199) := by decide
theorem test_V34_pop : (next? (exec (.pop 0) (st 0 0 254 0 254 [42]))).map (fun t => (readReg 0 t, readSp t, t.mem)) = some (42, 255, [(254, 42)]) := by decide
theorem test_V36_pop_sp : regpc 7 (.pop 7) (st 0 0 100 0 100 [7]) = some (7, 2) := by decide
theorem test_V46_call : (next? (exec (.call 1) (st 0 0 255 253))).map (fun t => (t.mem, readSp t, t.pc)) = some ([(254, 255)], 254, 0) := by decide
theorem test_V58_call_sp : (next? (exec (.call 7) (st 0 0 100 10))).map (fun t => (t.mem, readSp t, t.pc)) = some ([(99, 12)], 99, 99) := by decide
theorem test_V47_call_range : (next? (exec (.call 1) (st 0 0 255 254))).map (fun t => (t.status, readSp t)) =
    some (.faulted (.outOfRange (.returnAddress 256)) 254, 255) := by decide
theorem test_V49_call_stack_first : (next? (exec (.call 1) (st 0 0 0 254))).map (fun t => t.status) =
    some (.faulted (.stackFault .call 0) 254) := by decide
theorem test_V59_ret : regpc 7 .ret (st 0 0 254 0 254 [6]) = some (255, 6) := by decide
theorem test_V60_ret_empty : (next? (exec .ret (st 0 0 255 9))).map (fun t => (t.status, t.pc)) = some (.faulted (.stackFault .ret 255) 9, 9) := by decide

/-! ## ALU (V100 to V177) -/

theorem test_V103_add : r0pc (.add 0 1) (st 255 255 255) = some (254, 3) := by decide
theorem test_V160_add_same : regpc 1 (.add 1 1) (st 0 130 255) = some (4, 3) := by decide
theorem test_V106_sub : r0pc (.sub 0 1) (st 3 5 255) = some (254, 3) := by decide
theorem test_V176_sub_sp : regpc 7 (.sub 7 1) (st 0 1 0) = some (255, 3) := by decide
theorem test_V112_mul : r0pc (.mul 0 1) (st 255 255 255) = some (1, 3) := by decide
theorem test_V117_div : r0pc (.div 0 1) (st 17 5 255) = some (3, 3) := by decide
theorem test_V124_div_zero : (next? (exec (.div 0 1) (st 0 0 255 6))).map (fun t => (t.status, t.pc)) = some (.faulted (.divideByZero .div) 6, 6) := by decide
theorem test_V128_mod : r0pc (.mod 0 1) (st 255 16 255) = some (15, 3) := by decide
theorem test_V130_mod_zero : (next? (exec (.mod 0 1) (st 9 0 255))).map (fun t => (t.status, readReg 0 t)) = some (.faulted (.divideByZero .mod) 0, 9) := by decide
theorem test_V131_and : r0pc (.and 0 1) (st 0xCC 0xAA 255) = some (0x88, 3) := by decide
theorem test_V134_or : r0pc (.or 0 1) (st 0xCC 0xAA 255) = some (0xEE, 3) := by decide
theorem test_V137_xor : r0pc (.xor 0 1) (st 0xCC 0xAA 255) = some (0x66, 3) := by decide
theorem test_V143_not : r0pc (.not 0) (st 0x5A 0 255) = some (0xA5, 2) := by decide
theorem test_V146_shl : r0pc (.shl 0 1) (st 0xFF 7 255) = some (0x80, 3) := by decide
theorem test_V147_shl_8 : r0pc (.shl 0 1) (st 0xFF 8 255) = some (0, 3) := by decide
theorem test_V151_shr : r0pc (.shr 0 1) (st 0x80 1 255) = some (0x40, 3) := by decide
theorem test_V153_shr_8 : r0pc (.shr 0 1) (st 0xFF 8 255) = some (0, 3) := by decide
theorem test_V175_add_keeps_flag : (next? (exec (.add 0 1) { st 1 1 255 with fl := .less })).map (fun t => (readReg 0 t, t.fl)) = some (2, .less) := by decide

/-! ## Compare and branch (V40 to V67) -/

theorem test_V43_cmp : (next? (exec (.cmp 0 1) (st 0x80 0x7F 255))).map (fun t => (t.fl, t.pc)) = some (.greater, 3) := by decide
theorem test_V44_cmp : (next? (exec (.cmp 0 1) (st 0 255 255))).map (fun t => t.fl) = some .less := by decide
theorem test_V63_jmp : r0pc (.jmp 0) (st 12 0 255) = some (12, 12) := by decide
theorem test_V50_jeq_unset : r0pc (.jeq 0) (st 40 0 255 10) = some (40, 12) := by decide
theorem test_V52_jeq_equal : r0pc (.jeq 0) { st 40 0 255 10 with fl := .equal } = some (40, 40) := by decide
theorem test_V51_jne_unset : r0pc (.jne 0) (st 40 0 255 10) = some (40, 40) := by decide
theorem test_V53_jne_equal : r0pc (.jne 0) { st 40 0 255 10 with fl := .equal } = some (40, 12) := by decide

/-! ## Host interface (V70 to V77) -/

theorem test_V73_start_faulted : hostCommand .start { st 0 0 255 with status := .faulted (.divideByZero .div) 0 } =
    (.refused, { st 0 0 255 with status := .faulted (.divideByZero .div) 0 }) := by decide
theorem test_V75_load_keeps_the_rest : (hostCommand (.load [1]) { st 0 0 255 0 0 [0x82, 0x00, 0x08, 0x47] with status := .halted }).2.mem =
    [(0, 1), (2, 8), (3, 0x47)] := by decide
theorem test_V76_load_running : (hostCommand (.load [1]) (st 0 0 255)).1 = .refused := by decide
theorem test_V77_observe : (hostCommand (.observe (.reg 7)) State.reset).1 = .value (.byte 255) := by decide
/-- `0\n` and `255\n` (V23, W2). -/
theorem test_output_text : outputText [0, 255, 42] = [48, 10, 50, 53, 53, 10, 52, 50, 10] := by decide
/-- R261: 3 is UnsupportedOpcode. -/
theorem test_status_code : statusCode (.faulted (.unsupportedOpcode 0) 0) = 3 := by decide

/-! ## Witnesses: every statement's hypotheses can be met -/

theorem witness_DecodeOfEncodeIsTheInstruction : Function.Injective opcodeMap ∧ Function.Injective indexMap :=
  ⟨opcodeMap_injective, indexMap_injective⟩
theorem witness_DecodedBytesAreTheEncoding : decodeWith opcodeMap [0x45, 7, 9] = .ok (.push 7, [9]) := by rfl

/-- A Running state that meets the invariant, with LDI R2, 200 at 0. -/
def running0 : State := st 0 0 255 0 0 [0x82, 2, 200]
theorem running0_inv (map : Mnemonic → Byte) : Inv map running0 := ⟨by decide, by decide, fun _ _ h => by cases h⟩
theorem witness_StepKeepsInvariant :
    (Inv opcodeMap running0 ∧ ∃ t, step running0 = .next t ∧ t.pc = 3) ∧
    (Inv indexMap running0 ∧ ∃ t, stepWith indexMap running0 = .next t ∧ t.status = .faulted (.unsupportedOpcode 0x82) 0) :=
  ⟨⟨running0_inv _, _, rfl, rfl⟩, running0_inv _, _, rfl, rfl⟩
/-- A Faulted state that meets the invariant: StackFault of a POP. -/
def faulted0 : State := { st 0 0 255 9 with status := .faulted (.stackFault .pop 255) 9 }
theorem witness_HostCommandsKeepInvariant : Inv opcodeMap faulted0 :=
  ⟨by decide, by decide, fun f p h => by cases h; exact ⟨rfl, rfl, rfl⟩⟩
theorem witness_CanonicalMemoriesThatReadAlikeAreEqual :
    Memory.wf [(0, 5), (255, 1)] ∧ Memory.write [(255, 1)] 0 5 = [(0, 5), (255, 1)] := by decide

theorem witness_RunningStepRunsTheDecodedInstruction :
    (running0.status = .running ∧ decode (fetchWindow running0) = .ok (.ldi 2 200, [])) ∧
    ((st 0 0 255 0 0 [indexMap .hlt]).status = .running ∧
      decodeWith indexMap (fetchWindow (st 0 0 255 0 0 [indexMap .hlt])) = .ok (.hlt, [0, 0])) := ⟨⟨rfl, rfl⟩, rfl, rfl⟩
theorem witness_EveryMapRunsItsOwnEncodings : Function.Injective indexMap ∧
    (st 0 0 255 254 254 [indexMap .push, 7]).status = .running ∧
    fetchWindow (st 0 0 255 254 254 [indexMap .push, 7]) = encodeWith indexMap (.push 7) ++ [] := ⟨indexMap_injective, rfl, rfl⟩
/-- POP R2 at 0 under two maps, with 42 at SP = 200 in both memories. -/
theorem witness_TheMapMattersOnlyThroughDecoding :
    let s₁ := { st 0 0 200 with mem := [(0, 0x46), (1, 2), (200, 42)] }
    let s₂ := { s₁ with mem := [(0, indexMap .pop), (1, 2), (100, 9), (200, 42)] }
    Function.Injective opcodeMap ∧ Function.Injective indexMap ∧ s₁.status = .running ∧ s₂ = { s₁ with mem := s₂.mem } ∧
    fetchWindow s₁ = encodeWith opcodeMap (.pop 2) ++ [0] ∧ fetchWindow s₂ = encodeWith indexMap (.pop 2) ++ [0] ∧
    memRead (readSp s₁) s₂ = memRead (readSp s₁) s₁ :=
  ⟨opcodeMap_injective, indexMap_injective, rfl, rfl, rfl, rfl, rfl⟩
/-- The last place a three-byte instruction fits: 253. -/
theorem witness_WellFormedBytesInMemoryRun :
    (st 0 0 255 253 253 [0xA0, 7, 7]).pc + Mnemonic.add.length ≤ 256 ∧
    memRead (BitVec.ofNat 8 253) (st 0 0 255 253 253 [0xA0, 7, 7]) = opcodeMap .add ∧
    (RawInstr.mk .add (fetchBytes (st 0 0 255 253 253 [0xA0, 7, 7]) (Mnemonic.add.length - 1) 254)).wellFormed = true := by decide
theorem witness_StoppedCoreKeepsItsState : State.reset.status ≠ .running ∧ faulted0.status ≠ .running := by decide
theorem witness_FetchPastMemoryFaults :
    ((st 0 0 255 256).status = .running ∧ 255 < (st 0 0 255 256).pc) ∧
    ((st 0 0 255 254 254 [0x82]).pc ≤ 255 ∧ memRead (BitVec.ofNat 8 254) (st 0 0 255 254 254 [0x82]) = opcodeMap .ldi ∧
      256 < (st 0 0 255 254 254 [0x82]).pc + Mnemonic.ldi.length) := by decide
theorem witness_UnsupportedOpcodeFaults :
    (st 0 0 255 255).pc ≤ 255 ∧ ∀ m, opcodeMap m ≠ memRead (BitVec.ofNat 8 255) (st 0 0 255 255) :=
  ⟨by decide, fun m => by cases m <;> decide⟩
theorem witness_RegisterOperandAboveSevenFaults :
    ((st 0 0 255 254 254 [0x47, 8]).pc + Mnemonic.prn.length ≤ 256 ∧
      memRead (BitVec.ofNat 8 254) (st 0 0 255 254 254 [0x47, 8]) = opcodeMap .prn ∧ Mnemonic.prn.format ≠ .n ∧
      7 < (memRead (BitVec.ofNat 8 255) (st 0 0 255 254 254 [0x47, 8])).toNat) ∧
    ((st 0 0 255 253 253 [0xA0, 7, 8]).pc + Mnemonic.add.length ≤ 256 ∧
      memRead (BitVec.ofNat 8 253) (st 0 0 255 253 253 [0xA0, 7, 8]) = opcodeMap .add ∧ Mnemonic.add.format = .rr ∧
      (memRead (BitVec.ofNat 8 254) (st 0 0 255 253 253 [0xA0, 7, 8])).toNat ≤ 7 ∧
      7 < (memRead (BitVec.ofNat 8 255) (st 0 0 255 253 253 [0xA0, 7, 8])).toNat) := by decide

theorem witness_PushStoresBelowSp : readSp (st 42 0 1) ≠ 0 ∧ readSp State.reset ≠ 0 := by decide
theorem witness_PopLoadsFromSp : readSp (st 0 0 254) ≠ 255 ∧ (0 : RegIdx) ≠ Config.spIndex ∧ readSp (st 0 0 0) ≠ 255 := by decide
theorem witness_CallPushesReturnAddressAndJumps : readSp (st 0 20 1 253) ≠ 0 ∧ (st 0 20 1 253).pc + 2 ≤ 255 := by decide
theorem witness_RetPopsThePc : readSp (st 0 0 254) ≠ 255 := by decide
theorem witness_StackFaultsAtTheEnds : readSp (st 0 0 0) = 0 ∧ readSp (st 0 0 255) = 255 := by decide
theorem witness_CallReturnAddressMustFit : readSp (st 0 0 1 254) ≠ 0 ∧ 255 < (st 0 0 1 254).pc + 2 := by decide
theorem witness_PushThenPopRestores : readSp (st 0 0 1) ≠ 0 ∧ ((7 : RegIdx) ≠ Config.spIndex ∨ (7 : RegIdx) = 7) := by decide
theorem witness_CallThenRetReturns : readSp (st 0 0 255 253) ≠ 0 ∧ (st 0 0 255 253).pc + 2 ≤ 255 := by decide

theorem witness_DivModCompute : readReg 1 (st 17 1 255) ≠ 0 := by decide
theorem witness_DivisionLaw : readReg 1 (st 17 5 255) ≠ 0 ∧
    ∃ t u, exec (.div 0 1) (st 17 5 255) = .next t ∧ exec (.mod 0 1) (st 17 5 255) = .next u := ⟨by decide, _, _, rfl, rfl⟩
theorem witness_DivideByZeroOnlyByDivAndMod : readReg 1 (st 9 0 255) = 0 ∧
    ∃ t, exec (.mod 0 1) (st 9 0 255) = .next t ∧ t.status = .faulted (.divideByZero .mod) 0 := ⟨by decide, _, rfl, rfl⟩
theorem witness_ShiftsUseTheWholeCount : 8 ≤ (readReg 1 (st 0xFF 8 255)).toNat := by decide
theorem witness_CmpSetsTheFlag :
    (readReg 0 (st 5 5 255)).toNat = (readReg 1 (st 5 5 255)).toNat ∧
    (readReg 1 (st 128 127 255)).toNat < (readReg 0 (st 128 127 255)).toNat ∧
    (readReg 0 (st 0 255 255)).toNat < (readReg 1 (st 0 255 255)).toNat := by decide

theorem witness_FaultingStepChangesOnlyTheStatus : (st 0 0 255).status = .running ∧
    ∃ t, stepWith opcodeMap (st 0 0 255) = .next t ∧ t.status = .faulted (.unsupportedOpcode 0) 0 := ⟨rfl, _, rfl, rfl⟩
theorem witness_StatusChangesOnlyByStartHaltFaultReset :
    (∃ t, advanceWith opcodeMap (.host .reset) (st 0 0 255) = .next t ∧ t.status ≠ (st 0 0 255).status) ∧
    (∃ t, advanceWith opcodeMap (.host .start) State.reset = .next t ∧ t.status ≠ State.reset.status) ∧
    (∃ t, advanceWith opcodeMap .step (st 0 0 255 0 0 [1]) = .next t ∧ t.status ≠ (st 0 0 255 0 0 [1]).status) ∧
    (∃ t, advanceWith opcodeMap .step (st 0 0 255) = .next t ∧ t.status ≠ (st 0 0 255).status) :=
  ⟨⟨_, rfl, by decide⟩, ⟨_, rfl, by decide⟩, ⟨_, rfl, by decide⟩, ⟨_, rfl, by decide⟩⟩
theorem witness_OnlyCmpWritesAndJumpsReadTheFlag :
    (∃ t, exec (.cmp 0 1) (st 5 5 255) = .next t ∧ t.fl ≠ (st 5 5 255).fl) ∧
    ((∀ ra, Instr.prn 0 ≠ .jeq ra ∧ Instr.prn 0 ≠ .jne ra) ∧ ∃ t, exec (.prn 0) (st 5 5 255) = .next t) ∧
    (∃ t, exec (.jne 0) (setFlag .greater (st 5 5 255)) = .next t) :=
  ⟨⟨_, rfl, by decide⟩, ⟨by decide, _, rfl⟩, _, rfl⟩
theorem witness_FlagNeverReturnsToUnset : ({ running0 with fl := .less } : State).fl ≠ .unset ∧
    ∃ t, stepWith opcodeMap { running0 with fl := .less } = .next t := ⟨by decide, _, rfl⟩
theorem witness_OnlyPrnWritesTheOutput :
    (∃ t, exec (.prn 0) (st 5 0 255) = .next t ∧ t.out = [5]) ∧ (∃ t, exec .hlt (st 5 0 255) = .next t ∧ t.out = []) :=
  ⟨⟨_, rfl, rfl⟩, _, rfl, rfl⟩
theorem witness_OnlyLoadPushAndCallWriteMemory :
    (∃ t, advanceWith opcodeMap .step (st 5 0 255 0 0 [0x45, 0]) = .next t ∧ memRead 254 t ≠ memRead 254 (st 5 0 255 0 0 [0x45, 0])) ∧
    (∃ t, advanceWith opcodeMap (.host (.load [7])) State.reset = .next t ∧ memRead 0 t ≠ memRead 0 State.reset) ∧
    (∃ t, advanceWith opcodeMap (.host .reset) running0 = .next t ∧ memRead 0 t ≠ memRead 0 running0) :=
  ⟨⟨_, rfl, by decide⟩, ⟨_, rfl, by decide⟩, _, rfl, by decide⟩
theorem witness_RegistersOffTheTableAreKept :
    (∃ t, exec (.pop 0) (st 0 0 254) = .next t) ∧ (1 : RegIdx) ∉ regsWritten (.pop 0) := ⟨⟨_, rfl⟩, by decide⟩
/-- A JEQ that is not taken does not read its register. -/
theorem witness_UnreadRegistersDoNotInfluence :
    (0 : RegIdx) ∉ regsRead (st 0 0 255).fl (.jeq 0) ∧ ∃ t, exec (.jeq 0) (st 0 0 255) = .next t := ⟨by decide, _, rfl⟩
/-- A PUSH at 0 whose byte lands on the next opcode (k = 0), and one whose byte lands on the last byte of the next fetch (k = 2). -/
theorem witness_PushedByteIsFetchedNext :
    ((st 1 0 3 0 0 [0x45, 0]).status = .running ∧
      decodeWith opcodeMap (fetchWindow (st 1 0 3 0 0 [0x45, 0])) = .ok (.push 0, [0]) ∧ 0 < 3 ∧
      (readSp (st 1 0 3 0 0 [0x45, 0])).toNat = (st 1 0 3 0 0 [0x45, 0]).pc + 3 + 0) ∧
    (decodeWith opcodeMap (fetchWindow (st 9 0 5 0 0 [0x45, 0, 0x82, 1])) = .ok (.push 0, [0x82]) ∧ 2 < 3 ∧
      (readSp (st 9 0 5 0 0 [0x45, 0, 0x82, 1])).toNat = (st 9 0 5 0 0 [0x45, 0, 0x82, 1]).pc + 3 + 2) :=
  ⟨⟨rfl, rfl, by decide, rfl⟩, rfl, by decide, rfl⟩
/-- R64's own example moved to the next instruction: PUSH of HLT's byte over it halts the core there. -/
theorem test_pushed_hlt_halts :
    ((next? (step (st 1 0 3 0 0 [0x45, 0]))).bind (fun t => stepStatus t)) = some (.halted, 3) := by decide

theorem witness_LoadWritesFromAddressZero : State.reset.status ≠ .running ∧ (List.replicate 256 (7 : Byte)).length ≤ 256 :=
  ⟨by decide, Nat.le_of_eq List.length_replicate⟩
theorem witness_OversizeLoadChangesNothing : faulted0.status ≠ .running ∧ 256 < (List.replicate 257 (7 : Byte)).length :=
  ⟨by decide, by rw [List.length_replicate]; decide⟩
theorem witness_HostIsLockedOut : running0.status = .running ∧ faulted0.status = .faulted (.stackFault .pop 255) 9 := ⟨rfl, rfl⟩
theorem witness_StartSetsPcZeroAndRunning :
    (State.reset.status = .idle ∨ State.reset.status = .halted) ∧
    (({ State.reset with status := .halted } : State).status = .idle ∨ ({ State.reset with status := .halted } : State).status = .halted) := by
  decide
theorem witness_LoadedProgramRunsFromItsFirstInstruction :
    (State.reset.status = .idle ∨ State.reset.status = .halted) ∧ (encodeWith opcodeMap (.ldi 0 8) ++ [0x47, 0, 1]).length ≤ 256 := by decide
theorem witness_OutputTextDeterminesTheStream : outputText [1, 12] = outputText [1, 12] ∧ outputText [1, 12] ≠ outputText [11, 2] := by decide

end Sys2Proof.Tests
end

section
/-! What the decoder accepts and rejects, by the format of the row (30_encoding.md R81, R99). -/

namespace Sys2Proof

/-- How the row of a mnemonic decodes: its format, the operand bytes its instructions have, and the decoder of that format it
uses (R81, R87). -/
inductive RowShape (m : Mnemonic) : Prop
  | n (i : Instr) (hf : m.format = .n) (hi : i.toRaw = ⟨m, []⟩) (hd : decodeOperands m = decodeN i)
  | r (mk : RegIdx → Instr) (hf : m.format = .r) (hi : ∀ ra, (mk ra).toRaw = ⟨m, [regByte ra]⟩)
      (hd : decodeOperands m = decodeR mk)
  | rr (mk : RegIdx → RegIdx → Instr) (hf : m.format = .rr) (hi : ∀ ra rb, (mk ra rb).toRaw = ⟨m, [regByte ra, regByte rb]⟩)
      (hd : decodeOperands m = decodeRR mk)
  | ri (mk : RegIdx → Byte → Instr) (hf : m.format = .ri) (hi : ∀ ra imm, (mk ra imm).toRaw = ⟨m, [regByte ra, imm]⟩)
      (hd : decodeOperands m = decodeRI mk)

theorem rowShape (m : Mnemonic) : RowShape m := by
  cases m with
  | hlt => exact .n .hlt rfl rfl rfl
  | ret => exact .n .ret rfl rfl rfl
  | prn => exact .r .prn rfl (fun _ => rfl) rfl
  | push => exact .r .push rfl (fun _ => rfl) rfl
  | pop => exact .r .pop rfl (fun _ => rfl) rfl
  | call => exact .r .call rfl (fun _ => rfl) rfl
  | not => exact .r .not rfl (fun _ => rfl) rfl
  | jmp => exact .r .jmp rfl (fun _ => rfl) rfl
  | jeq => exact .r .jeq rfl (fun _ => rfl) rfl
  | jne => exact .r .jne rfl (fun _ => rfl) rfl
  | add => exact .rr .add rfl (fun _ _ => rfl) rfl
  | sub => exact .rr .sub rfl (fun _ _ => rfl) rfl
  | mul => exact .rr .mul rfl (fun _ _ => rfl) rfl
  | div => exact .rr .div rfl (fun _ _ => rfl) rfl
  | mod => exact .rr .mod rfl (fun _ _ => rfl) rfl
  | and => exact .rr .and rfl (fun _ _ => rfl) rfl
  | or => exact .rr .or rfl (fun _ _ => rfl) rfl
  | xor => exact .rr .xor rfl (fun _ _ => rfl) rfl
  | shl => exact .rr .shl rfl (fun _ _ => rfl) rfl
  | shr => exact .rr .shr rfl (fun _ _ => rfl) rfl
  | cmp => exact .rr .cmp rfl (fun _ _ => rfl) rfl
  | ldi => exact .ri .ldi rfl (fun _ _ => rfl) rfl

theorem Mnemonic.length_le_three (m : Mnemonic) : m.length ≤ 3 := by cases m <;> decide

/-- What the operands of a row decode to is an instruction of that row, and its operand bytes are those taken. -/
theorem decodeOperands_ok {m : Mnemonic} {bs rest : List Byte} {i : Instr} (h : decodeOperands m bs = .ok (i, rest)) :
    i.mnemonic = m ∧ bs = i.operandBytes ++ rest := by
  have of_raw : ∀ {j : Instr} {os : List Byte}, j.toRaw = ⟨m, os⟩ → bs = os ++ rest →
      j.mnemonic = m ∧ bs = j.operandBytes ++ rest := by
    intro j os hj hbs; cases hj; exact ⟨rfl, hbs⟩
  cases rowShape m with
  | n j _ hj hd => rw [hd] at h; cases h; exact of_raw hj rfl
  | r mk _ hmk hd =>
    obtain ⟨ra, rfl, hbs⟩ := decodeR_ok (hd ▸ h)
    exact of_raw (hmk ra) hbs
  | rr mk _ hmk hd =>
    obtain ⟨ra, rb, rfl, hbs⟩ := decodeRR_ok (hd ▸ h)
    exact of_raw (hmk ra rb) hbs
  | ri mk _ hmk hd =>
    obtain ⟨ra, imm, rfl, hbs⟩ := decodeRI_ok (hd ▸ h)
    exact of_raw (hmk ra imm) hbs

/-- Whatever decodes is the encoding of what it decodes to, followed by the bytes handed back. -/
theorem decodeWith_ok {map : Mnemonic → Byte} {bs rest : List Byte} {i : Instr} (h : decodeWith map bs = .ok (i, rest)) :
    bs = encodeWith map i ++ rest := by
  unfold decodeWith at h
  split at h
  · cases h
  · split at h
    · cases h
    · next m hm =>
      obtain ⟨rfl, rfl⟩ := decodeOperands_ok h
      rw [encodeWith, lookupOpcode_some hm, List.cons_append]

theorem encodeWith_length (map : Mnemonic → Byte) (i : Instr) : (encodeWith map i).length = i.length := by
  cases i <;> rfl

theorem decodeR_missing {mk : RegIdx → Instr} : ∀ {bs : List Byte}, bs.length < 1 →
    decodeR mk bs = .error (.missingByte (bs.length + 1))
  | [], _ => rfl

theorem decodeRR_missing {mk : RegIdx → RegIdx → Instr} : ∀ {bs : List Byte}, bs.length < 2 →
    decodeRR mk bs = .error (.missingByte (bs.length + 1))
  | [], _ => rfl
  | [_], _ => rfl

theorem decodeRI_missing {mk : RegIdx → Byte → Instr} : ∀ {bs : List Byte}, bs.length < 2 →
    decodeRI mk bs = .error (.missingByte (bs.length + 1))
  | [], _ => rfl
  | [_], _ => rfl

/-- Bytes too few for the row: the first one missing is reported, before any register is checked (R99 stages 1 to 3). -/
theorem decodeOperands_missing {m : Mnemonic} {bs : List Byte} (h : bs.length < m.format.kinds.length) :
    decodeOperands m bs = .error (.missingByte (bs.length + 1)) := by
  cases rowShape m with
  | n _ hf _ _ => rw [hf] at h; exact absurd h (Nat.not_lt_zero _)
  | r _ hf _ hd => rw [hf] at h; rw [hd]; exact decodeR_missing h
  | rr _ hf _ hd => rw [hf] at h; rw [hd]; exact decodeRR_missing h
  | ri _ hf _ hd => rw [hf] at h; rw [hd]; exact decodeRI_missing h

theorem decodeR_error {mk : RegIdx → Instr} {bs : List Byte} {e : DecodeError} (h : decodeR mk bs = .error e) :
    (bs.length < 1 ∧ e = .missingByte (bs.length + 1)) ∨ ∃ b : Byte, 7 < b.toNat ∧ e = .registerOutOfRange b := by
  unfold decodeR at h
  split at h
  · cases h; exact .inl ⟨by decide, rfl⟩
  · split at h
    · next ha => cases h; exact .inr ⟨_, regOperand_error ha⟩
    · cases h

theorem decodeRR_error {mk : RegIdx → RegIdx → Instr} {bs : List Byte} {e : DecodeError} (h : decodeRR mk bs = .error e) :
    (bs.length < 2 ∧ e = .missingByte (bs.length + 1)) ∨ ∃ b : Byte, 7 < b.toNat ∧ e = .registerOutOfRange b := by
  unfold decodeRR at h
  split at h
  · cases h; exact .inl ⟨by decide, rfl⟩
  · cases h; exact .inl ⟨Nat.lt_succ_self 1, rfl⟩
  · split at h
    · next ha => cases h; exact .inr ⟨_, regOperand_error ha⟩
    · split at h
      · next hb => cases h; exact .inr ⟨_, regOperand_error hb⟩
      · cases h

theorem decodeRI_error {mk : RegIdx → Byte → Instr} {bs : List Byte} {e : DecodeError} (h : decodeRI mk bs = .error e) :
    (bs.length < 2 ∧ e = .missingByte (bs.length + 1)) ∨ ∃ b : Byte, 7 < b.toNat ∧ e = .registerOutOfRange b := by
  unfold decodeRI at h
  split at h
  · cases h; exact .inl ⟨by decide, rfl⟩
  · cases h; exact .inl ⟨Nat.lt_succ_self 1, rfl⟩
  · split at h
    · next ha => cases h; exact .inr ⟨_, regOperand_error ha⟩
    · cases h

/-- All the operands of a row can be rejected for: one of the at most two bytes is missing, or a register byte is above 7. -/
theorem decodeOperands_error {m : Mnemonic} {bs : List Byte} {e : DecodeError} (h : decodeOperands m bs = .error e) :
    (bs.length < 2 ∧ e = .missingByte (bs.length + 1)) ∨ ∃ b : Byte, 7 < b.toNat ∧ e = .registerOutOfRange b := by
  cases rowShape m with
  | n _ _ _ hd => rw [hd] at h; cases h
  | r _ _ _ hd => exact (decodeR_error (hd ▸ h)).imp_left fun ⟨hl, he⟩ => ⟨hl.trans (by decide), he⟩
  | rr _ _ _ hd => exact decodeRR_error (hd ▸ h)
  | ri _ _ _ hd => exact decodeRI_error (hd ▸ h)

/-- Why bytes can be rejected (R99 stages 1 to 4), the bytes there being the ones before the missing one. -/
inductive Rejected (map : Mnemonic → Byte) (bs : List Byte) : DecodeError → Prop
  | missing (h : bs.length < 3) : Rejected map bs (.missingByte bs.length)
  | unsupported (code : Byte) (h : ∀ m, map m ≠ code) : Rejected map bs (.unsupportedOpcode code)
  | register (index : Byte) (h : 7 < index.toNat) : Rejected map bs (.registerOutOfRange index)

theorem decodeWith_error {map : Mnemonic → Byte} {bs : List Byte} {e : DecodeError} (h : decodeWith map bs = .error e) :
    Rejected map bs e := by
  unfold decodeWith at h
  split at h
  · cases h; exact .missing (by decide)
  · next code bs =>
    split at h
    · next hl => cases h; exact .unsupported code (lookupOpcode_none.1 hl)
    · rcases decodeOperands_error h with ⟨hl, rfl⟩ | ⟨b, hb, rfl⟩
      · exact .missing (Nat.succ_lt_succ hl)
      · exact .register b hb

/-- Under an injective map, an opcode with too few bytes after it is rejected for the first missing byte. -/
theorem decodeWith_missing {map : Mnemonic → Byte} (hinj : Function.Injective map) {m : Mnemonic} {bs : List Byte}
    (h : bs.length + 1 < m.length) : decodeWith map (map m :: bs) = .error (.missingByte (bs.length + 1)) := by
  simp only [decodeWith, lookupOpcode_map hinj, decodeOperands_missing (Nat.lt_of_succ_lt_succ h)]

end Sys2Proof
end

section
/-! What the fetch sees, what an instruction's effect and a host command leave, and the frame of a register write. -/

namespace Sys2Proof.Machine

/-- The fetch sees every byte asked for that lies below address 256 (R101). -/
theorem fetchBytes_length_eq (s : State) {n a : Nat} (ha : a ≤ 256) : (fetchBytes s n a).length = min n (256 - a) := by
  induction n generalizing a with
  | zero => simp [fetchBytes]
  | succ n ih =>
    by_cases h : a ≤ 255
    · rw [fetchBytes_succ_of_le h, List.length_cons, ih (by omega)]
      omega
    · rw [fetchBytes_of_gt (by omega), List.length_nil]
      omega

theorem fetchWindow_length {s : State} (hpc : s.pc ≤ 256) : (fetchWindow s).length = min 3 (256 - s.pc) :=
  fetchBytes_length_eq s hpc

/-- An instruction that decodes at the PC lies in memory as a whole (R97). -/
theorem decoded_fits {map : Mnemonic → Byte} {s : State} {i : Instr} {rest : List Byte} (hpc : s.pc ≤ 256)
    (hd : decodeWith map (fetchWindow s) = .ok (i, rest)) : s.pc + i.length ≤ 256 := by
  have hlen := congrArg List.length (decodeWith_ok hd)
  rw [fetchWindow_length hpc, List.length_append, encodeWith_length] at hlen
  omega

variable {s t : State} {i : Instr}

/-- A completing instruction moves the PC past itself, or to a byte (R31, R32). -/
theorem Effect.pc (h : Effect s i t) : t.pc = s.pc + i.length ∨ t.pc ≤ 255 := by
  have byte_le : ∀ v : Byte, v.toNat ≤ 255 := fun v => Nat.le_of_lt_succ v.isLt
  cases h with
  | writes => exact .inl rfl
  | prn | hlt | push | pop | cmp => exact .inl rfl
  | call | ret | jumps => exact .inr (byte_le _)
  | falls _ hi => obtain ⟨ra, rfl | rfl⟩ := hi <;> exact .inl rfl

/-- HLT is the only completing instruction that changes the status (R37). -/
theorem Effect.status (h : Effect s i t) : t.status = s.status ∨ (i = .hlt ∧ t.status = .halted) := by
  cases h with
  | hlt => exact .inr ⟨rfl, rfl⟩
  | writes | prn | push | pop | call | ret | cmp | jumps | falls => exact .inl rfl

/-- PUSH and CALL are the only instructions that write memory, one cell each (R21). -/
theorem Effect.mem (h : Effect s i t) :
    t.mem = s.mem ∨ ((∃ ra, i = .push ra ∨ i = .call ra) ∧ ∃ (a v : Byte), t.mem = s.mem.write a.toNat v) := by
  cases h with
  | push ra => exact .inr ⟨⟨ra, .inl rfl⟩, _, _, rfl⟩
  | call ra => exact .inr ⟨⟨ra, .inr rfl⟩, _, _, rfl⟩
  | writes | prn | hlt | pop | ret | cmp | jumps | falls => exact .inl rfl

theorem hostLoad_of_running (p : List Byte) (hs : s.status = .running) : hostLoad p s = (.refused, s) := by
  simp only [hostLoad, hs]

/-- A load while the core is not Running: the length decides (R293, R294). -/
theorem hostLoad_of_stopped (p : List Byte) (hs : s.status ≠ .running) :
    hostLoad p s = if Config.maxProgram < p.length then (.programTooLarge p.length, s)
      else (.ok, { s with mem := s.mem.writeList Config.loadBase p }) := by
  cases h : s.status with
  | running => exact absurd h hs
  | idle | halted | faulted => simp only [hostLoad, h]

/-- A load never touches the status (R293). -/
@[simp] theorem hostLoad_status (p : List Byte) (s : State) : (hostLoad p s).2.status = s.status := by
  by_cases hs : s.status = .running
  · rw [hostLoad_of_running p hs]
  · rw [hostLoad_of_stopped p hs]
    split <;> rfl

/-- All a start can do: run from the start PC, from Idle or Halted, or nothing (R296, R297). -/
theorem hostStart_cases (s : State) :
    ((s.status = .idle ∨ s.status = .halted) ∧ (hostStart s).2 = setStatus .running (setPc Config.pcReset s)) ∨
    (hostStart s).2 = s := by
  cases h : s.status with
  | idle | halted => exact .inl ⟨by simp, by simp only [hostStart, h]⟩
  | running | faulted => exact .inr (by simp only [hostStart, h])

/-- An observation only reads (R300). -/
@[simp] theorem hostObserve_state (q : Query) (s : State) : (hostObserve q s).2 = s := by
  cases h : s.status <;> simp only [hostObserve, h]

@[simp] theorem memRead_reset (a : Byte) : memRead a State.reset = 0 := rfl

/-- A register write leaves every other register and all of memory (R23). -/
theorem writeReg_keeps (r : RegIdx) (v : Int) (s : State) : Keeps [r] [] s (writeReg r v s) :=
  ⟨fun q hq => by rw [readReg_writeReg, if_neg (List.ne_of_not_mem_cons hq)], fun _ _ => memRead_writeReg _ r v s⟩

end Sys2Proof.Machine
end

section
/-! The invariant under a step: a fault taken fits the state, and a completing instruction keeps the memory canonical and the PC
at most 256. -/

namespace Sys2Proof.Machine

variable {map : Mnemonic → Byte} {s t : State}

/-- Whether a fault fits reads only SP and the PC, which taking a fault keeps. -/
@[simp] theorem faultFits_raiseFault (f g : CoreFault) : FaultFits map (raiseFault g s) f ↔ FaultFits map s f := by
  cases f with
  | outOfRange info => cases info <;> exact Iff.rfl
  | stackFault op => cases op <;> exact Iff.rfl
  | unsupportedOpcode | divideByZero => exact Iff.rfl

/-- A rejected fetch of a PC in range records a fault that fits: a missing byte is always the one at 256 (R101). -/
theorem faultFits_of_decode_error {e : DecodeError} (hpc : s.pc ≤ 256) (hd : decodeWith map (fetchWindow s) = .error e) :
    FaultFits map s (decodeFault s.pc e) := by
  cases decodeWith_error hd with
  | missing hshort =>
    have hlen := fetchWindow_length hpc
    show s.pc + (fetchWindow s).length = 256
    omega
  | unsupported _ h => exact h
  | register _ h => exact h

/-- An instruction's own fault fits the state when the instruction lies in memory, so that a CALL is at most at 254. -/
theorem OwnFault.fits {i : Instr} {f : CoreFault} (h : OwnFault s i f) (hfits : s.pc + i.length ≤ 256) : FaultFits map s f := by
  cases h with
  | callRange ra h =>
    have hlen : s.pc + 2 ≤ 256 := hfits
    exact ⟨by omega, by omega⟩
  | push _ h | pop _ h | callStack _ h | ret h => exact ⟨rfl, h⟩
  | div | mod => trivial

/-- Taking a fault that fits keeps the invariant. -/
theorem Inv.raiseFault {f : CoreFault} (hi : Inv map s) (hf : FaultFits map s f) : Inv map (raiseFault f s) := by
  obtain ⟨hmem, hpc, -⟩ := hi
  refine ⟨hmem, hpc, fun g p hg => ?_⟩
  cases hg
  exact ⟨rfl, (faultFits_raiseFault f f).2 hf⟩

/-- A completing instruction of a Running core that lies in memory keeps the invariant. -/
theorem Inv.effect {i : Instr} (hi : Inv map s) (hs : s.status = .running) (he : Effect s i t) (hfits : s.pc + i.length ≤ 256) :
    Inv map t := by
  obtain ⟨hmem, -, -⟩ := hi
  refine ⟨?_, ?_, fun f p hf => ?_⟩
  · rcases he.mem with h | ⟨-, a, v, h⟩
    · rwa [h]
    · rw [h]; exact Memory.wf_write hmem a.isLt
  · have := he.pc
    omega
  · rcases he.status with h | ⟨-, h⟩
    · rw [h, hs] at hf; cases hf
    · rw [h] at hf; cases hf

theorem stepWith_keeps_inv (hi : Inv map s) (h : stepWith map s = .next t) : Inv map t := by
  have ⟨_, hpc, _⟩ := hi
  rcases stepWith_cases h with ⟨-, rfl⟩ | ⟨hs, i, rest, hd, hx⟩ | ⟨-, e, hd, rfl⟩
  · exact hi
  · have hfits := decoded_fits hpc hd
    rcases exec_cases hx with ⟨f, hf, rfl⟩ | he
    · exact hi.raiseFault (hf.fits hfits)
    · exact hi.effect hs he hfits
  · exact hi.raiseFault (faultFits_of_decode_error hpc hd)

/-- Settles O3: every case of a step (`stepWith_cases`) keeps the invariant. -/
theorem stepKeepsInvariant : Obligations.StepKeepsInvariant :=
  ⟨fun _ _ hi h => stepWith_keeps_inv hi h, fun _ _ _ hi h => stepWith_keeps_inv hi h⟩

end Sys2Proof.Machine
end

section
/-! The other statements about the state: the fetch past memory, register writes, and who changes the status and memory. -/

namespace Sys2Proof.Machine

/-- The fetch window of a PC in memory is the opcode byte and what stands after it. -/
theorem fetchWindow_eq_cons {s : State} (hpc : s.pc ≤ 255) :
    fetchWindow s = memRead (BitVec.ofNat 8 s.pc) s :: fetchBytes s 2 (s.pc + 1) := fetchBytes_succ_of_le hpc

/-- Settles O13: with the PC past memory the window is empty; else it ends at 256, before the row's last byte. -/
theorem fetchPastMemoryFaults : Obligations.FetchPastMemoryFaults := by
  constructor
  · intro map s hs hpc
    have hd : decodeWith map (fetchWindow s) = .error (.missingByte 0) := by
      rw [fetchWindow, fetchBytes_of_gt hpc]; rfl
    exact stepWith_of_error hs hd
  · intro map hinj s m hs hpc hop hpast
    have hlen : (fetchBytes s 2 (s.pc + 1)).length = min 2 (256 - (s.pc + 1)) := fetchBytes_length_eq s (by omega)
    have hrow := m.length_le_three
    have hd : decodeWith map (fetchWindow s) = .error (.missingByte ((fetchBytes s 2 (s.pc + 1)).length + 1)) := by
      rw [fetchWindow_eq_cons hpc, hop]
      exact decodeWith_missing hinj (by omega)
    have haddr : s.pc + ((fetchBytes s 2 (s.pc + 1)).length + 1) = 256 := by omega
    rw [stepWith_of_error hs hd, decodeFault, haddr]
    rfl

/-- Settles O37: the one register written reads as the value narrowed, and the rest is kept. -/
theorem registerWritesAreModulo256 : Obligations.RegisterWritesAreModulo256 := by
  intro r v s
  refine ⟨?_, writeReg_keeps r v s, rfl, rfl, rfl, rfl⟩
  rw [readReg_writeReg, if_pos rfl, narrow_toNat]

/-- A step that changes the status ran HLT or took a fault (R37). -/
theorem stepWith_status_changed {map : Mnemonic → Byte} {s t : State} (h : stepWith map s = .next t)
    (hne : t.status ≠ s.status) : s.status = .running ∧
    (((∃ rest, decodeWith map (fetchWindow s) = .ok (.hlt, rest)) ∧ t.status = .halted) ∨
      ∃ f p, t.status = .faulted f p) := by
  rcases stepWith_cases h with ⟨-, rfl⟩ | ⟨hs, i, rest, hd, hx⟩ | ⟨hs, e, -, rfl⟩
  · exact absurd rfl hne
  · refine ⟨hs, ?_⟩
    rcases exec_cases hx with ⟨f, -, rfl⟩ | he
    · exact .inr ⟨f, s.pc, rfl⟩
    · rcases he.status with hst | ⟨rfl, hst⟩
      · exact absurd hst hne
      · exact .inl ⟨⟨rest, hd⟩, hst⟩
  · exact ⟨hs, .inr ⟨_, s.pc, rfl⟩⟩

/-- Settles O39: over the moves, with `stepWith_status_changed` for the step. -/
theorem statusChangesOnlyByStartHaltFaultReset : Obligations.StatusChangesOnlyByStartHaltFaultReset := by
  intro map mv s t h hne
  cases mv with
  | step =>
    obtain ⟨hs, ⟨hd, ht⟩ | hf⟩ := stepWith_status_changed h hne
    · exact .inr (.inr (.inl ⟨rfl, hs, hd, ht⟩))
    · exact .inr (.inr (.inr ⟨rfl, hs, hf⟩))
  | host c =>
    cases h
    cases c with
    | reset => exact .inl ⟨rfl, rfl⟩
    | load p => exact absurd (hostLoad_status p s) hne
    | observe q => exact absurd (congrArg State.status (hostObserve_state q s)) hne
    | start =>
      rcases hostStart_cases s with ⟨hs, ht⟩ | ht
      · exact .inr (.inl ⟨rfl, hs, congrArg State.status ht⟩)
      · exact absurd (congrArg State.status ht) hne

/-- A step that changes a cell ran PUSH or CALL (R21). -/
theorem stepWith_cell_changed {map : Mnemonic → Byte} {s t : State} {a : Byte} (h : stepWith map s = .next t)
    (hne : memRead a t ≠ memRead a s) : s.status = .running ∧
    ∃ i rest, decodeWith map (fetchWindow s) = .ok (i, rest) ∧ ∃ ra, i = .push ra ∨ i = .call ra := by
  rcases stepWith_cases h with ⟨-, rfl⟩ | ⟨hs, i, rest, hd, hx⟩ | ⟨-, e, -, rfl⟩
  · exact absurd rfl hne
  · rcases exec_cases hx with ⟨f, -, rfl⟩ | he
    · exact absurd (memRead_raiseFault a f s) hne
    · rcases he.mem with hm | ⟨hi, -⟩
      · exact absurd (congrArg (Memory.read · a.toNat) hm) hne
      · exact ⟨hs, i, rest, hd, hi⟩
  · exact absurd (memRead_raiseFault a _ s) hne

/-- Settles O43: over the moves, with `stepWith_cell_changed` for the step. -/
theorem onlyLoadPushAndCallWriteMemory : Obligations.OnlyLoadPushAndCallWriteMemory := by
  refine ⟨memRead_reset, fun map mv s t a h hne => ?_⟩
  cases mv with
  | step =>
    obtain ⟨hs, hi⟩ := stepWith_cell_changed h hne
    exact .inr (.inr ⟨rfl, hs, hi⟩)
  | host c =>
    cases h
    cases c with
    | reset => exact .inl rfl
    | load p => exact .inr (.inl ⟨p, rfl⟩)
    | observe q => exact absurd (congrArg (memRead a) (hostObserve_state q s)) hne
    | start =>
      rcases hostStart_cases s with ⟨-, ht⟩ | ht
      · exact absurd (congrArg (memRead a) ht) hne
      · exact absurd (congrArg (memRead a) ht) hne

/-- Settles O1: each field of the reset state, read off. -/
theorem resetHoldsTheSpecifiedValues : Obligations.ResetHoldsTheSpecifiedValues :=
  fun _ => ⟨State.reset, rfl, rfl, memRead_reset, rfl, rfl, rfl, rfl, rfl⟩

end Sys2Proof.Machine
end

section
/-! Faults are precise: a step that leaves a Running core Faulted is fault entry on the state it began in (R265). -/

namespace Sys2Proof.Machine

/-- A completing instruction of a Running core does not leave it Faulted. -/
theorem Effect.status_ne_faulted {s t : State} {i : Instr} (he : Effect s i t) (hs : s.status = .running) (f : CoreFault) (p : Nat) :
    t.status ≠ .faulted f p := by
  rcases he.status with h | ⟨-, h⟩
  · simp [h, hs]
  · simp [h]

/-- A step that leaves a Running core Faulted took one fault, from the instruction or from the fetch, and did nothing else. -/
theorem stepWith_eq_raiseFault {map : Mnemonic → Byte} {s t : State} {f : CoreFault} {p : Nat} (hs : s.status = .running)
    (h : stepWith map s = .next t) (ht : t.status = .faulted f p) : ∃ g, t = raiseFault g s := by
  rcases stepWith_cases h with ⟨hstopped, -⟩ | ⟨-, i, rest, -, hx⟩ | ⟨-, e, -, rfl⟩
  · exact absurd hs hstopped
  · rcases exec_cases hx with ⟨g, -, rfl⟩ | he
    · exact ⟨g, rfl⟩
    · exact absurd ht (he.status_ne_faulted hs f p)
  · exact ⟨_, rfl⟩

/-- Settles O38: the step is `raiseFault` of the state before, which records that state's PC and sets the status alone. -/
theorem faultingStepChangesOnlyTheStatus : Obligations.FaultingStepChangesOnlyTheStatus := by
  intro map s t f p hs h ht
  obtain ⟨g, rfl⟩ := stepWith_eq_raiseFault hs h ht
  cases ht
  exact ⟨rfl, rfl⟩

end Sys2Proof.Machine
end

section
/-! The encoder and the decoder undo each other (30_encoding.md R80, R81, R84, R85), and which encoded tuples are instructions
(R93, R96, R97). -/

namespace Sys2Proof

/-- The family `Laws.Encoding` covers every instruction. -/
theorem encoding_statement (i : Instr) : Laws.Encoding.Statement i := by
  cases i with
  | ldi ra imm => exact Laws.Encoding.ldi ra imm
  | prn ra => exact Laws.Encoding.prn ra
  | hlt => exact Laws.Encoding.hlt
  | push ra => exact Laws.Encoding.push ra
  | pop ra => exact Laws.Encoding.pop ra
  | call ra => exact Laws.Encoding.call ra
  | ret => exact Laws.Encoding.ret
  | add ra rb => exact Laws.Encoding.add ra rb
  | sub ra rb => exact Laws.Encoding.sub ra rb
  | mul ra rb => exact Laws.Encoding.mul ra rb
  | div ra rb => exact Laws.Encoding.div ra rb
  | mod ra rb => exact Laws.Encoding.mod ra rb
  | and ra rb => exact Laws.Encoding.and ra rb
  | or ra rb => exact Laws.Encoding.or ra rb
  | xor ra rb => exact Laws.Encoding.xor ra rb
  | not ra => exact Laws.Encoding.not ra
  | shl ra rb => exact Laws.Encoding.shl ra rb
  | shr ra rb => exact Laws.Encoding.shr ra rb
  | cmp ra rb => exact Laws.Encoding.cmp ra rb
  | jmp ra => exact Laws.Encoding.jmp ra
  | jeq ra => exact Laws.Encoding.jeq ra
  | jne ra => exact Laws.Encoding.jne ra

/-- Bytes after the operands are handed back untouched (R97). -/
theorem decodeOperands_append {m : Mnemonic} {bs rest : List Byte} {i : Instr} (h : decodeOperands m bs = .ok (i, rest))
    (more : List Byte) : decodeOperands m (bs ++ more) = .ok (i, rest ++ more) := by
  cases rowShape m with
  | n j _ _ hd => rw [hd] at h ⊢; cases h; rfl
  | r mk _ _ hd =>
    obtain ⟨ra, rfl, rfl⟩ := decodeR_ok (hd ▸ h)
    simp [hd, decodeR]
  | rr mk _ _ hd =>
    obtain ⟨ra, rb, rfl, rfl⟩ := decodeRR_ok (hd ▸ h)
    simp [hd, decodeRR]
  | ri mk _ _ hd =>
    obtain ⟨ra, imm, rfl, rfl⟩ := decodeRI_ok (hd ▸ h)
    simp [hd, decodeRI]

/-- Under an injective map the decoder undoes the encoder, whatever bytes follow. -/
theorem decodeWith_encodeWith {map : Mnemonic → Byte} (hinj : Function.Injective map) (i : Instr) (rest : List Byte) :
    decodeWith map (encodeWith map i ++ rest) = .ok (i, rest) := by
  obtain ⟨-, -, hd⟩ := encoding_statement i
  simp only [encodeWith, List.cons_append, decodeWith, lookupOpcode_map hinj]
  exact decodeOperands_append hd rest

/-- Settles O7: the opcode byte finds the row, whose operands decode back (`Laws.Encoding`) with any bytes after them. -/
theorem decodeOfEncodeIsTheInstruction : Obligations.DecodeOfEncodeIsTheInstruction :=
  fun _ hinj i rest => decodeWith_encodeWith hinj i rest

/-- Settles O8: `decodeWith_ok` splits the bytes, and every instruction's own encoding has its row's length and is well formed. -/
theorem decodedBytesAreTheEncoding : Obligations.DecodedBytesAreTheEncoding := by
  intro map bs i rest h
  obtain ⟨hwf, -, -⟩ := encoding_statement i
  exact ⟨decodeWith_ok h, encodeWith_length map i, hwf⟩

theorem Mnemonic.length_pos (m : Mnemonic) : 0 < m.length := Nat.succ_pos _

/-- A byte of at most 7 is the operand byte of a register (R82). -/
theorem exists_regByte {b : Byte} (h : b.toNat ≤ 7) : ∃ r, b = regByte r :=
  ⟨⟨b.toNat, Nat.lt_succ_of_le h⟩, regOperand_ok (dif_pos (Nat.lt_succ_of_le h))⟩

/-- No form is shut out: a well-formed encoded tuple is an instruction (R96, R97). -/
theorem exists_toRaw_of_wellFormed {m : Mnemonic} {os : List Byte} (h : (RawInstr.mk m os).wellFormed = true) :
    ∃ i : Instr, i.toRaw = ⟨m, os⟩ := by
  obtain ⟨hlen, hall⟩ : os.length = m.format.kinds.length ∧
      (m.format.kinds.zip os).all (fun ko => ko.1.admits ko.2) = true := by
    simpa [RawInstr.wellFormed] using h
  cases rowShape m with
  | n i hf hi =>
    rw [hf] at hlen
    obtain rfl := List.eq_nil_of_length_eq_zero hlen
    exact ⟨i, hi⟩
  | r mk hf hmk =>
    rw [hf] at hlen hall
    obtain ⟨a, rfl⟩ := List.length_eq_one_iff.1 hlen
    obtain ⟨ra, rfl⟩ := exists_regByte (b := a) (by simpa [Format.kinds, OperandKind.admits] using hall)
    exact ⟨mk ra, hmk ra⟩
  | rr mk hf hmk =>
    rw [hf] at hlen hall
    obtain ⟨a, b, rfl⟩ := List.length_eq_two.1 hlen
    obtain ⟨ha, hb⟩ : a.toNat ≤ 7 ∧ b.toNat ≤ 7 := by simpa [Format.kinds, OperandKind.admits] using hall
    obtain ⟨ra, rfl⟩ := exists_regByte ha
    obtain ⟨rb, rfl⟩ := exists_regByte hb
    exact ⟨mk ra rb, hmk ra rb⟩
  | ri mk hf hmk =>
    rw [hf] at hlen hall
    obtain ⟨a, imm, rfl⟩ := List.length_eq_two.1 hlen
    obtain ⟨ra, rfl⟩ := exists_regByte (b := a) (by simpa [Format.kinds, OperandKind.admits] using hall)
    exact ⟨mk ra imm, hmk ra imm⟩

/-- A register byte above 7 is rejected with that byte (R93, R96). -/
theorem regOperand_of_gt {b : Byte} (h : 7 < b.toNat) : regOperand b = .error (.registerOutOfRange b) :=
  dif_neg (Nat.not_lt.2 h)

/-- Once all the bytes of a row are there, its first register is checked first (R99). -/
theorem decodeOperands_first_register {m : Mnemonic} {a : Byte} {bs : List Byte} (hf : m.format ≠ .n)
    (hlen : m.format.kinds.length ≤ bs.length + 1) (ha : 7 < a.toNat) :
    decodeOperands m (a :: bs) = .error (.registerOutOfRange a) := by
  have two : m.format.kinds.length = 2 → ∃ b bs', bs = b :: bs' := fun h2 =>
    List.exists_cons_of_length_pos (by omega)
  cases rowShape m with
  | n _ hn => exact absurd hn hf
  | r mk _ _ hd => simp [hd, decodeR, regOperand_of_gt ha]
  | rr mk hrr _ hd =>
    obtain ⟨b, bs, rfl⟩ := two (by rw [hrr]; rfl)
    simp [hd, decodeRR, regOperand_of_gt ha]
  | ri mk hri _ hd =>
    obtain ⟨b, bs, rfl⟩ := two (by rw [hri]; rfl)
    simp [hd, decodeRI, regOperand_of_gt ha]

/-- The second register of format RR is checked once the first is legal (R99). -/
theorem decodeOperands_second_register {m : Mnemonic} {a b : Byte} {bs : List Byte} (hf : m.format = .rr)
    (ha : a.toNat ≤ 7) (hb : 7 < b.toNat) : decodeOperands m (a :: b :: bs) = .error (.registerOutOfRange b) := by
  obtain ⟨ra, rfl⟩ := exists_regByte ha
  cases rowShape m with
  | rr mk _ _ hd => simp [hd, decodeRR, regOperand_of_gt hb]
  | n _ hf' | r _ hf' | ri _ hf' => rw [hf] at hf'; cases hf'

end Sys2Proof
end

section
/-! A step over the bytes at the PC, under any map: the instruction they encode runs, and bytes that are none fault
(30_encoding.md R90, R93, R95, R97). -/

namespace Sys2Proof.Machine

variable {map : Mnemonic → Byte} {s : State}

/-- Settles O10: the step of the default map is `stepWith opcodeMap`, and `stepWith_of_decode` is the statement for every map. -/
theorem runningStepRunsTheDecodedInstruction : Obligations.RunningStepRunsTheDecodedInstruction :=
  ⟨fun s _ _ hs hd => (step_eq_stepWith s).trans (stepWith_of_decode hs hd), step_eq_stepWith,
    fun _ _ _ _ hs hd => stepWith_of_decode hs hd⟩

/-- A Running core whose bytes at the PC begin with the encoding of `i` runs `i`. -/
theorem stepWith_of_encoded (hinj : Function.Injective map) {i : Instr} {rest : List Byte} (hs : s.status = .running)
    (hw : fetchWindow s = encodeWith map i ++ rest) : stepWith map s = exec i s :=
  stepWith_of_decode hs (hw ▸ decodeWith_encodeWith hinj i rest)

/-- Settles O53: `stepWith_of_encoded`. -/
theorem everyMapRunsItsOwnEncodings : Obligations.EveryMapRunsItsOwnEncodings :=
  fun _ hinj _ _ _ hs hw => stepWith_of_encoded hinj hs hw

/-- The bytes fetched are the first `n` and then the others. -/
theorem fetchBytes_add (s : State) (n k a : Nat) : fetchBytes s (n + k) a = fetchBytes s n a ++ fetchBytes s k (a + n) := by
  induction n generalizing a with
  | zero => simp [fetchBytes]
  | succ n ih =>
    rw [show n + 1 + k = n + k + 1 by omega]
    by_cases h : a ≤ 255
    · rw [fetchBytes_succ_of_le h, fetchBytes_succ_of_le h, ih, List.cons_append, show a + (n + 1) = a + 1 + n by omega]
    · simp only [fetchBytes_of_gt (show 255 < a by omega), fetchBytes_of_gt (show 255 < a + (n + 1) by omega), List.nil_append]

/-- A Running core whose bytes at the PC, as many as `i` takes, are its encoding runs `i`. -/
theorem stepWith_of_fetched (hinj : Function.Injective map) {i : Instr} (hs : s.status = .running)
    (hb : fetchBytes s i.length s.pc = encodeWith map i) : stepWith map s = exec i s := by
  have hw : fetchWindow s = encodeWith map i ++ fetchBytes s (3 - i.length) (s.pc + i.length) := by
    rw [← hb, ← fetchBytes_add, Nat.add_sub_cancel' (show i.length ≤ 3 from i.mnemonic.length_le_three)]
    rfl
  exact stepWith_of_encoded hinj hs hw

/-- Settles O11: the well-formed bytes are an instruction's (`exists_toRaw_of_wellFormed`), so its encoding stands at the PC. -/
theorem wellFormedBytesInMemoryRun : Obligations.WellFormedBytesInMemoryRun := by
  intro map hinj s m hs hfit hop hwf
  obtain ⟨i, hi⟩ := exists_toRaw_of_wellFormed hwf
  obtain ⟨rfl, hos⟩ := RawInstr.mk.inj hi
  have hpc : s.pc ≤ 255 := by
    have := i.mnemonic.length_pos
    omega
  refine ⟨i, hi, stepWith_of_fetched hinj hs ?_⟩
  calc fetchBytes s i.length s.pc
      = memRead (BitVec.ofNat 8 s.pc) s :: fetchBytes s (i.mnemonic.length - 1) (s.pc + 1) := fetchBytes_succ_of_le hpc
    _ = encodeWith map i := by rw [hop, ← hos, encodeWith]

/-- Settles O14: the lookup finds no row (`lookupOpcode_none`). -/
theorem unsupportedOpcodeFaults : Obligations.UnsupportedOpcodeFaults := by
  intro map s hs hpc hnone
  have hd : decodeWith map (fetchWindow s) = .error (.unsupportedOpcode (memRead (BitVec.ofNat 8 s.pc) s)) := by
    simp only [fetchWindow_eq_cons hpc, decodeWith, lookupOpcode_none.2 hnone]
  exact stepWith_of_error hs hd

/-- A Running core with the byte of a row at the PC, whose operand bytes are rejected, takes the fault of the rejection. -/
theorem stepWith_of_operands_error (hinj : Function.Injective map) {m : Mnemonic} {e : DecodeError} (hs : s.status = .running)
    (hpc : s.pc ≤ 255) (hop : memRead (BitVec.ofNat 8 s.pc) s = map m)
    (hd : decodeOperands m (fetchBytes s 2 (s.pc + 1)) = .error e) :
    stepWith map s = .next (raiseFault (decodeFault s.pc e) s) :=
  stepWith_of_error hs (by simp only [fetchWindow_eq_cons hpc, hop, decodeWith, lookupOpcode_map hinj, hd])

/-- Settles O15: all bytes of the row are there, so the registers are checked, a before b. -/
theorem registerOperandAboveSevenFaults : Obligations.RegisterOperandAboveSevenFaults := by
  intro map hinj s m hs hfit hop
  have hrow : m.length = m.format.kinds.length + 1 := rfl
  constructor
  · intro hf ha
    have hpos : 0 < m.format.kinds.length := by
      cases h : m.format with
      | n => exact absurd h hf
      | r | rr | ri => decide
    have hmax := m.length_le_three
    have hlen : (fetchBytes s 1 (s.pc + 1 + 1)).length = min 1 (256 - (s.pc + 1 + 1)) := fetchBytes_length_eq s (by omega)
    have hd : decodeOperands m (fetchBytes s 2 (s.pc + 1)) =
        .error (.registerOutOfRange (memRead (BitVec.ofNat 8 (s.pc + 1)) s)) := by
      rw [fetchBytes_succ_of_le (by omega)]
      exact decodeOperands_first_register hf (by omega) ha
    exact stepWith_of_operands_error hinj hs (by omega) hop hd
  · intro hf ha hb
    have htwo : m.length = 3 := by rw [hrow, hf]; rfl
    have hd : decodeOperands m (fetchBytes s 2 (s.pc + 1)) =
        .error (.registerOutOfRange (memRead (BitVec.ofNat 8 (s.pc + 2)) s)) := by
      rw [fetchBytes_succ_of_le (by omega), fetchBytes_succ_of_le (by omega)]
      exact decodeOperands_second_register hf ha hb
    exact stepWith_of_operands_error hinj hs (by omega) hop hd

end Sys2Proof.Machine
end

section
/-! A program loaded and started runs from its first instruction (30_encoding.md R95, 70_reset_and_hazards.md R293, R299). -/

namespace Sys2Proof.Machine

variable {s : State}

/-- The fetch sees the bytes that stand in memory from the address up. -/
theorem fetchBytes_eq_of_reads {p : List Byte} {a : Nat} (hfit : a + p.length ≤ 256)
    (h : ∀ k (hk : k < p.length), memRead (BitVec.ofNat 8 (a + k)) s = p[k]) : fetchBytes s p.length a = p := by
  induction p generalizing a with
  | nil => rfl
  | cons v p ih =>
    rw [List.length_cons] at hfit
    have hhead : memRead (BitVec.ofNat 8 a) s = v := h 0 (Nat.succ_pos _)
    have htail : fetchBytes s p.length (a + 1) = p := ih (by omega) fun k hk => by
      have := h (k + 1) (Nat.succ_lt_succ hk)
      rwa [show a + (k + 1) = a + 1 + k by omega] at this
    rw [List.length_cons, fetchBytes_succ_of_le (by omega), hhead, htail]

/-- A load of a program that fits, while the core is not Running, is accepted (R293). -/
theorem hostLoad_of_fits {p : List Byte} (hs : s.status ≠ .running) (hp : p.length ≤ 256) :
    hostLoad p s = (.ok, { s with mem := s.mem.writeList Config.loadBase p }) :=
  (hostLoad_of_stopped p hs).trans (if_neg (Nat.not_lt.2 hp))

/-- A start from Idle or Halted is accepted (R296). -/
theorem hostStart_of_stopped (hs : s.status = .idle ∨ s.status = .halted) :
    hostStart s = (.ok, setStatus .running (setPc Config.pcReset s)) := by
  rcases hs with h | h <;> simp only [hostStart, h]

/-- Where the last write to memory was a run of bytes, the fetch sees the first of them. -/
theorem fetchBytes_of_writeList {m : Memory} {a : Nat} {p q : List Byte} (hmem : s.mem = m.writeList a (p ++ q))
    (hfit : a + (p ++ q).length ≤ 256) : fetchBytes s p.length a = p := by
  have hlen : (p ++ q).length = p.length + q.length := List.length_append
  refine fetchBytes_eq_of_reads (by omega) fun k hk => ?_
  have haddr : (BitVec.ofNat 8 (a + k)).toNat = a + k := by rw [BitVec.toNat_ofNat]; omega
  have hidx : a + k - a = k := Nat.add_sub_cancel_left a k
  rw [memRead, haddr, hmem, Memory.read_writeList, dif_pos (by omega)]
  simp only [hidx, List.getElem_append_left hk]

/-- Settles O51: after load and start the encoding of `i` stands at the PC, 0. -/
theorem loadedProgramRunsFromItsFirstInstruction : Obligations.LoadedProgramRunsFromItsFirstInstruction := by
  intro map hinj i rest s hs hfit
  have hstopped : s.status ≠ .running := by rcases hs with h | h <;> simp [h]
  refine ⟨_, _, hostLoad_of_fits hstopped hfit, hostStart_of_stopped hs, rfl, stepWith_of_fetched hinj rfl ?_⟩
  rw [← encodeWith_length map i]
  exact fetchBytes_of_writeList rfl ((Nat.zero_add _).trans_le hfit)

end Sys2Proof.Machine
end

section
/-! An instruction uses memory only through the byte at SP: on two states alike but for memory it does the same, and writes the
same byte at the same address (30_encoding.md R84). -/

namespace Sys2Proof.Machine

/-- Both outcomes are next states, alike but for memory, where `m` and `n` were the memories before: an address that read the
same in both before reads the same in both after. -/
def AlikeNext (m n : Memory) (o p : Host.Outcome State Fault Refusal) : Prop :=
  ∃ t u, o = .next t ∧ p = .next u ∧ u = { t with mem := u.mem } ∧ ∀ a, n.read a = m.read a → u.mem.read a = t.mem.read a

variable {m n : Memory} {t : State} {o p : Host.Outcome State Fault Refusal}

/-- Neither outcome touches its memory. -/
theorem AlikeNext.keeps (ho : o = .next t) (hm : t.mem = m) (hp : p = .next { t with mem := n }) : AlikeNext m n o p :=
  ⟨_, _, ho, hp, rfl, fun _ h => by rw [hm]; exact h⟩

/-- Both outcomes write the same byte at the same address. -/
theorem AlikeNext.writes {a : Nat} {v : Byte} (ho : o = .next t) (hm : t.mem = m.write a v)
    (hp : p = .next { t with mem := n.write a v }) : AlikeNext m n o p :=
  ⟨_, _, ho, hp, rfl, fun _ h => by simp only [hm, Memory.read_write, h]⟩

variable (s : State) (n : Memory)

theorem jumpForm_alike (taken : Bool) (ra : RegIdx) :
    AlikeNext s.mem n (jumpForm taken ra s) (jumpForm taken ra { s with mem := n }) := by
  cases taken with
  | true | false => exact .keeps rfl rfl rfl

theorem dividingForm_alike (name : DivOp) (op : Nat → Nat → Int) (ra rb : RegIdx) :
    AlikeNext s.mem n (dividingForm name op ra rb s) (dividingForm name op ra rb { s with mem := n }) := by
  by_cases h : readReg rb s = 0
  · exact .keeps (if_pos h) rfl (if_pos h)
  · exact .keeps (if_neg h) rfl (if_neg h)

variable {s n}

/-- An instruction reads no memory but the byte at SP. -/
theorem exec_alike (i : Instr) (hsp : n.read (readSp s).toNat = s.mem.read (readSp s).toNat) :
    AlikeNext s.mem n (exec i s) (exec i { s with mem := n }) := by
  have htop : stackTop { s with mem := n } = stackTop s := hsp
  cases i with
  | ldi | prn | hlt | add | sub | mul | and | or | xor | not | shl | shr | cmp | jmp => exact .keeps rfl rfl rfl
  | div | mod => exact dividingForm_alike ..
  | jeq | jne => exact jumpForm_alike ..
  | push ra =>
    by_cases h : readSp s = 0
    · exact .keeps (exec_push_fault ra h) rfl (exec_push_fault ra h)
    · exact .writes (exec_push ra h) rfl (exec_push ra h)
  | call ra =>
    by_cases h : readSp s = 0
    · exact .keeps (exec_call_stack_fault ra h) rfl (exec_call_stack_fault ra h)
    · by_cases hp : s.pc + 2 ≤ 255
      · exact .writes (exec_call ra h hp) rfl (exec_call ra h hp)
      · have hp := Nat.lt_of_not_le hp
        exact .keeps (exec_call_range_fault ra h hp) rfl (exec_call_range_fault ra h hp)
  | pop ra =>
    by_cases h : readSp s = 255
    · exact .keeps (exec_pop_fault ra h) rfl (exec_pop_fault ra h)
    · exact .keeps (exec_pop ra h) rfl (htop ▸ exec_pop ra (s := { s with mem := n }) h)
  | ret =>
    by_cases h : readSp s = 255
    · exact .keeps (exec_ret_fault h) rfl (exec_ret_fault h)
    · exact .keeps (exec_ret h) rfl (htop ▸ exec_ret (s := { s with mem := n }) h)

/-- Settles O54: each core runs `i` (`stepWith_of_encoded`), which uses memory only through the byte at SP (`exec_alike`). -/
theorem theMapMattersOnlyThroughDecoding : Obligations.TheMapMattersOnlyThroughDecoding := by
  intro map₁ map₂ hinj₁ hinj₂ i rest₁ rest₂ s₁ s₂ hs₁ hs₂ hw₁ hw₂ hsp
  have hrun₂ : s₂.status = .running := by rw [hs₂]; exact hs₁
  obtain ⟨t, u, ht, hu, htu, hmem⟩ := exec_alike i hsp
  rw [← hs₂] at hu
  exact ⟨t, u, (stepWith_of_encoded hinj₁ hs₁ hw₁).trans ht, (stepWith_of_encoded hinj₂ hrun₂ hw₂).trans hu, htu,
    fun a => hmem a.toNat⟩

end Sys2Proof.Machine
end

section
/-! LDI, PRN and HLT, and who writes the output (40_data_io_halt.md). -/

namespace Sys2Proof.Machine

variable {s t u : State} {i : Instr}

/-- Nothing changed is within every frame. -/
theorem Keeps.refl (regs : List RegIdx) (cells : List Byte) (s : State) : Keeps regs cells s s := ⟨fun _ _ => rfl, fun _ _ => rfl⟩

/-- A frame speaks of registers and memory alone: the PC, FL, status and output of the state after do not matter to it. -/
theorem Keeps.of_regs_mem {regs : List RegIdx} {cells : List Byte} (h : Keeps regs cells s t) (hr : u.regs = t.regs)
    (hm : u.mem = t.mem) : Keeps regs cells s u := by
  obtain ⟨hregs, hcells⟩ := h
  refine ⟨fun r hmem => ?_, fun a hmem => ?_⟩
  · rw [← hregs r hmem, readReg, readReg, hr]
  · rw [← hcells a hmem, memRead, memRead, hm]

/-- PRN has no fault of its own (60_exceptions.md section 3). -/
theorem OwnFault.ne_prn {f : CoreFault} (h : OwnFault s i f) (ra : RegIdx) : i ≠ .prn ra := by
  cases h with
  | push | pop | callStack | callRange | ret | div | mod => exact Instr.noConfusion

/-- PRN is the only completing instruction that writes the output, one byte at the end (R124). -/
theorem Effect.out (h : Effect s i t) :
    (∃ ra, i = .prn ra ∧ t.out = s.out ++ [readReg ra s]) ∨ ((∀ ra, i ≠ .prn ra) ∧ t.out = s.out) := by
  cases h with
  | prn ra => exact .inl ⟨ra, rfl, rfl⟩
  | writes _ _ _ _ hne => exact .inr ⟨hne, rfl⟩
  | hlt | push | pop | call | ret | cmp => exact .inr ⟨fun _ => Instr.noConfusion, rfl⟩
  | jumps _ _ hi => obtain ⟨_, rfl | rfl | rfl⟩ := hi <;> exact .inr ⟨fun _ => Instr.noConfusion, rfl⟩
  | falls _ hi => obtain ⟨_, rfl | rfl⟩ := hi <;> exact .inr ⟨fun _ => Instr.noConfusion, rfl⟩

/-- Settles O42: a fault is never PRN's and leaves the output; a completing instruction is `Effect.out`. -/
theorem onlyPrnWritesTheOutput : Obligations.OnlyPrnWritesTheOutput := by
  intro i s t h
  rcases exec_cases h with ⟨f, hf, rfl⟩ | he
  · exact .inr ⟨hf.ne_prn, raiseFault_out f s⟩
  · exact he.out

/-- Settles O16: one register write, then the PC moves. -/
theorem ldiLoadsImmediate : Obligations.LdiLoadsImmediate := by
  intro ra imm s
  refine ⟨_, exec_ldi ra imm s, ?_, rfl, rfl, rfl, rfl, (writeReg_keeps ra imm.toNat s).of_regs_mem rfl rfl⟩
  rw [readReg_advancePc, readReg_writeReg, if_pos rfl, narrow_ofNat_toNat]

/-- Settles O17: `emit`, then the PC moves; neither touches a register or memory. -/
theorem prnAppendsTheRegister : Obligations.PrnAppendsTheRegister :=
  fun ra s => ⟨_, exec_prn ra s, rfl, rfl, rfl, rfl, (Keeps.refl [] [] s).of_regs_mem rfl rfl⟩

/-- Settles O18: `setStatus`, then the PC moves; neither touches a register or memory. -/
theorem hltHalts : Obligations.HltHalts :=
  fun s => ⟨_, exec_hlt s, rfl, rfl, rfl, rfl, (Keeps.refl [] [] s).of_regs_mem rfl rfl⟩

end Sys2Proof.Machine
end

section
/-! PUSH, POP, CALL and RET where they complete, and the pairs PUSH then POP and CALL then RET (41_stack_call.md). -/

namespace Sys2Proof.Machine

variable {s t u : State}

/-- Two effects in turn: what neither frame lists is kept. -/
theorem Keeps.trans {regs regs' : List RegIdx} {cells cells' : List Byte} (hst : Keeps regs cells s t)
    (htu : Keeps regs' cells' t u) : Keeps (regs ++ regs') (cells ++ cells') s u := by
  obtain ⟨hregs, hcells⟩ := hst
  obtain ⟨hregs', hcells'⟩ := htu
  refine ⟨fun r hr => ?_, fun a ha => ?_⟩
  · rw [List.mem_append, not_or] at hr
    exact (hregs' r hr.2).trans (hregs r hr.1)
  · rw [List.mem_append, not_or] at ha
    exact (hcells' a ha.2).trans (hcells a ha.1)

theorem pushByte_keeps (v : Byte) (s : State) : Keeps [Config.spIndex] [pushAddr s] s (pushByte v s) :=
  ⟨fun r hr => by rw [readReg_pushByte, if_neg (List.ne_of_not_mem_cons hr)],
    fun a ha => by rw [memRead_pushByte, if_neg (List.ne_of_not_mem_cons ha)]⟩

theorem memRead_pushAddr_pushByte (v : Byte) (s : State) : memRead (pushAddr s) (pushByte v s) = v := by
  rw [memRead_pushByte, if_pos rfl]

theorem popSp_keeps (s : State) : Keeps [Config.spIndex] [] s (popSp s) := writeReg_keeps ..

/-- After a push there is room to pop. -/
theorem pushAddr_ne_max (h : readSp s ≠ 0) : pushAddr s ≠ 255 := by
  intro hmax
  have hsucc := pushAddr_toNat h
  have hlt := (readSp s).isLt
  rw [hmax] at hsucc
  exact absurd (hsucc ▸ hlt) (by decide)

/-- SP one below, then one above that, is SP as it was. -/
theorem readSp_eq_of_pushed_popped (hs : readSp s ≠ 0) (ht : readSp t = pushAddr s)
    (hu : (readSp u).toNat = (readSp t).toNat + 1) : readSp u = readSp s :=
  BitVec.eq_of_toNat_eq (by rw [hu, ht, pushAddr_toNat hs])

/-- Settles O19: one `pushByte`, then the PC moves. -/
theorem pushStoresBelowSp : Obligations.PushStoresBelowSp := fun ra s hs =>
  ⟨_, exec_push ra hs, pushAddr_toNat hs, readSp_pushByte (readReg ra s) s, memRead_pushAddr_pushByte _ s, rfl, rfl, rfl,
    rfl,
    (pushByte_keeps _ s).of_regs_mem rfl rfl⟩

/-- Settles O20: SP is written first and `ra` after it (R157), so for R7 the popped byte is what stays. -/
theorem popLoadsFromSp : Obligations.PopLoadsFromSp := by
  intro ra s hs
  refine ⟨_, exec_pop ra hs, ?_, fun hra => ?_, rfl, rfl, rfl, rfl,
    ((popSp_keeps s).trans (writeReg_keeps ra _ _)).of_regs_mem rfl rfl⟩
  · rw [readReg_advancePc, readReg_writeReg, if_pos rfl, narrow_ofNat_toNat, stackTop]
  · rw [readSp, readReg_advancePc, readReg_writeReg, if_neg hra.symm]
    exact readSp_popSp hs

/-- Settles O21: one `pushByte` of the return address, then the PC is the target read after it, which for R7 is the new SP. -/
theorem callPushesReturnAddressAndJumps : Obligations.CallPushesReturnAddressAndJumps := by
  intro ra s hs hpc
  refine ⟨_, exec_call ra hs hpc, pushAddr_toNat hs, readSp_pushByte (narrow (s.pc + 2)) s, ?_, ?_, rfl, rfl, rfl,
    (pushByte_keeps _ s).of_regs_mem rfl rfl⟩
  · rw [memRead_setPc, memRead_pushAddr_pushByte]
    exact narrow_toNat_of_lt (Nat.lt_succ_of_le hpc)
  · rw [setPc_pc, readReg_pushByte, apply_ite BitVec.toNat]

/-- Settles O22: one `popSp`, then the PC is the byte popped. -/
theorem retPopsThePc : Obligations.RetPopsThePc := fun s hs =>
  ⟨_, exec_ret hs, rfl, readSp_popSp hs, rfl, rfl, rfl, (popSp_keeps s).of_regs_mem rfl rfl⟩

/-- Settles O25: O19 puts `ri`'s byte where O20 takes it from, and SP falls and rises by 1 unless the pop wrote it. -/
theorem pushThenPopRestores : Obligations.PushThenPopRestores := by
  intro ri rj s hs
  obtain ⟨t, hpush, -, hspt, hbyte, -, -, -, -, hst⟩ := pushStoresBelowSp ri s hs
  obtain ⟨u, hpop, hrj, hspu, -, -, -, -, htu⟩ := popLoadsFromSp rj t (hspt ▸ pushAddr_ne_max hs)
  have hcopy : readReg rj u = readReg ri s := by rw [hrj, hspt, hbyte]
  have hsp (hne : rj ≠ Config.spIndex) : readSp u = readSp s := readSp_eq_of_pushed_popped hs hspt (hspu hne)
  refine ⟨t, u, hpush, hpop, hcopy, fun h => ?_, (htu.2 _ List.not_mem_nil).trans hbyte, fun r hr => ?_⟩
  · by_cases hj : rj = Config.spIndex
    · obtain rfl : ri = rj := h.resolve_left (absurd hj)
      rw [hj] at hcopy
      exact hcopy
    · exact hsp hj
  · by_cases hr7 : r = Config.spIndex
    · rw [hr7] at hr ⊢
      exact hsp hr.symm
    · exact (hst.trans htu).1 r (by simp [hr, hr7])

/-- Settles O26: O21 stores the return address where O22 takes the PC from, and SP falls and rises by 1. -/
theorem callThenRetReturns : Obligations.CallThenRetReturns := by
  intro ra s hs hpc
  obtain ⟨t, hcall, -, hspt, hbyte, -, -, -, -, hst⟩ := callPushesReturnAddressAndJumps ra s hs hpc
  obtain ⟨u, hret, hpcu, hspu, -, -, -, htu⟩ := retPopsThePc t (hspt ▸ pushAddr_ne_max hs)
  refine ⟨t, u, hcall, hret, hbyte, by rw [hpcu, hspt]; exact hbyte, fun r => ?_⟩
  by_cases hr7 : r = Config.spIndex
  · rw [hr7]
    exact readSp_eq_of_pushed_popped hs hspt hspu
  · exact (hst.trans htu).1 r (by simp [hr7])

end Sys2Proof.Machine
end

section
/-! The ALU: one register write of an exact integer, narrowed, and then the PC moves (42_alu.md, R23, R216). -/

namespace Sys2Proof.Machine

variable (ra rb : RegIdx) (s : State)

theorem exec_add : exec (.add ra rb) s =
    .next (advancePc 3 (writeReg ra ((readReg ra s).toNat + (readReg rb s).toNat) s)) := rfl
theorem exec_sub : exec (.sub ra rb) s =
    .next (advancePc 3 (writeReg ra ((readReg ra s).toNat - (readReg rb s).toNat) s)) := rfl
theorem exec_mul : exec (.mul ra rb) s =
    .next (advancePc 3 (writeReg ra ((readReg ra s).toNat * (readReg rb s).toNat) s)) := rfl
theorem exec_and : exec (.and ra rb) s =
    .next (advancePc 3 (writeReg ra ((readReg ra s).toNat &&& (readReg rb s).toNat : Nat) s)) := rfl
theorem exec_or : exec (.or ra rb) s =
    .next (advancePc 3 (writeReg ra ((readReg ra s).toNat ||| (readReg rb s).toNat : Nat) s)) := rfl
theorem exec_xor : exec (.xor ra rb) s =
    .next (advancePc 3 (writeReg ra ((readReg ra s).toNat ^^^ (readReg rb s).toNat : Nat) s)) := rfl
theorem exec_not : exec (.not ra) s = .next (advancePc 2 (writeReg ra (255 - (readReg ra s).toNat) s)) := rfl
theorem exec_shl : exec (.shl ra rb) s =
    .next (advancePc 3 (writeReg ra ((readReg ra s).toNat * 2 ^ (readReg rb s).toNat : Nat) s)) := rfl
theorem exec_shr : exec (.shr ra rb) s =
    .next (advancePc 3 (writeReg ra ((readReg ra s).toNat / 2 ^ (readReg rb s).toNat : Nat) s)) := rfl

/-- What the register written holds after the PC moved. -/
theorem readReg_advancePc_writeReg (n : Nat) (r : RegIdx) (v : Int) : readReg r (advancePc n (writeReg r v s)) = narrow v := by
  rw [readReg_advancePc, readReg_writeReg, if_pos rfl]

/-- What every ALU instruction leaves, beside the value it stores: the PC past it, and all else as before (R216). -/
theorem advancePc_writeReg_frame {s t : State} {n : Nat} {r : RegIdx} {v : Int} (ht : t = advancePc n (writeReg r v s)) :
    t.pc = s.pc + n ∧ t.fl = s.fl ∧ t.status = s.status ∧ t.out = s.out ∧ Keeps [r] [] s t := by
  subst ht
  exact ⟨rfl, rfl, rfl, rfl, (writeReg_keeps r v s).of_regs_mem rfl rfl⟩

/-- Narrowing a natural number is taking it modulo 256. -/
theorem narrow_natCast_toNat (n : Nat) : (narrow (n : Int)).toNat = n % 256 := by
  have := narrow_toNat n
  omega

variable (a b : Byte)

theorem narrow_and : narrow (a.toNat &&& b.toNat : Nat) = a &&& b := by
  rw [← BitVec.toNat_and, narrow_ofNat_toNat]

theorem narrow_or : narrow (a.toNat ||| b.toNat : Nat) = a ||| b := by
  rw [← BitVec.toNat_or, narrow_ofNat_toNat]

theorem narrow_xor : narrow (a.toNat ^^^ b.toNat : Nat) = a ^^^ b := by
  rw [← BitVec.toNat_xor, narrow_ofNat_toNat]

/-- 255 - A is A with every bit inverted (R204). -/
theorem narrow_not : narrow (255 - a.toNat) = ~~~a := by
  have hnot : (~~~a).toNat = 255 - a.toNat := BitVec.toNat_not
  have hle : a.toNat ≤ 255 := Nat.le_of_lt_succ a.isLt
  rw [← narrow_ofNat_toNat (~~~a), hnot, Nat.cast_sub hle, Nat.cast_ofNat]

/-- A * 2^k is A shifted left by k places, for every k (R207, R213). -/
theorem narrow_shl (k : Nat) : narrow (a.toNat * 2 ^ k : Nat) = a <<< k :=
  BitVec.eq_of_toNat_eq <| by rw [narrow_natCast_toNat, BitVec.toNat_shiftLeft, Nat.shiftLeft_eq]

/-- floor(A / 2^k) is A shifted right by k places, for every k (R210, R213). -/
theorem narrow_shr (k : Nat) : narrow (a.toNat / 2 ^ k : Nat) = a >>> k := by
  rw [← Nat.shiftRight_eq_div_pow, ← BitVec.toNat_ushiftRight, narrow_ofNat_toNat]

/-- The quotient fits a byte, so it is stored as it is (R189). -/
theorem narrow_div_toNat : (narrow (a.toNat / b.toNat : Nat)).toNat = a.toNat / b.toNat :=
  narrow_toNat_of_lt ((Nat.div_le_self ..).trans_lt a.isLt)

/-- The remainder is not negative and fits a byte, so it is stored as it is (R192). -/
theorem narrow_mod_toNat :
    (narrow (a.toNat - b.toNat * (a.toNat / b.toNat : Nat))).toNat = a.toNat - b.toNat * (a.toNat / b.toNat) := by
  rw [← Nat.cast_mul, ← Nat.cast_sub (Nat.mul_div_le ..)]
  exact narrow_toNat_of_lt ((Nat.sub_le ..).trans_lt a.isLt)

/-- Settles O27: the exact result is narrowed, which for SUB is of an integer that may be negative. -/
theorem addSubMulWrapModulo256 : Obligations.AddSubMulWrapModulo256 := by
  intro ra rb s
  refine ⟨⟨_, exec_add ra rb s, ?_, advancePc_writeReg_frame rfl⟩, ⟨_, exec_sub ra rb s, ?_, advancePc_writeReg_frame rfl⟩,
    ⟨_, exec_mul ra rb s, ?_, advancePc_writeReg_frame rfl⟩⟩ <;> rw [readReg_advancePc_writeReg]
  · rw [← Nat.cast_add, narrow_natCast_toNat]
  · exact narrow_toNat _
  · rw [← Nat.cast_mul, narrow_natCast_toNat]

/-- Settles O28: quotient and remainder both fit a byte (`narrow_div_toNat`, `narrow_mod_toNat`). -/
theorem divModCompute : Obligations.DivModCompute := by
  intro ra rb s hb
  refine ⟨⟨_, exec_div hb, ?_, advancePc_writeReg_frame rfl⟩, ⟨_, exec_mod hb, ?_, advancePc_writeReg_frame rfl⟩⟩ <;>
    rw [readReg_advancePc_writeReg]
  · exact narrow_div_toNat ..
  · exact narrow_mod_toNat ..

/-- Settles O31: the stored byte is the operation on bytes, which works bit by bit. -/
theorem bitwiseLogicIsPerBit : Obligations.BitwiseLogicIsPerBit := by
  intro ra rb s
  refine ⟨⟨_, exec_and ra rb s, fun k => ?_, advancePc_writeReg_frame rfl⟩,
    ⟨_, exec_or ra rb s, fun k => ?_, advancePc_writeReg_frame rfl⟩,
    ⟨_, exec_xor ra rb s, fun k => ?_, advancePc_writeReg_frame rfl⟩⟩ <;> rw [readReg_advancePc_writeReg]
  · rw [narrow_and, BitVec.getLsbD_and]
  · rw [narrow_or, BitVec.getLsbD_or]
  · rw [narrow_xor, BitVec.getLsbD_xor]

/-- Settles O32: the stored byte is the complement (`narrow_not`), whose value is 255 - A. -/
theorem notInvertsEveryBit : Obligations.NotInvertsEveryBit := by
  intro ra s
  refine ⟨_, exec_not ra s, ?_, fun k hk => ?_, advancePc_writeReg_frame rfl⟩ <;> rw [readReg_advancePc_writeReg, narrow_not]
  · exact BitVec.toNat_not
  · rw [BitVec.getLsbD_not, decide_eq_true hk, Bool.true_and]

/-- Settles O33: the stored byte is A shifted by the whole count, which from the word's width up leaves 0. -/
theorem shiftsUseTheWholeCount : Obligations.ShiftsUseTheWholeCount := by
  intro ra rb s
  refine ⟨⟨_, exec_shl ra rb s, ?_, fun hk => ?_, advancePc_writeReg_frame rfl⟩,
    ⟨_, exec_shr ra rb s, ?_, fun hk => ?_, advancePc_writeReg_frame rfl⟩⟩ <;> rw [readReg_advancePc_writeReg]
  · exact narrow_natCast_toNat _
  · exact (narrow_shl ..).trans (BitVec.shiftLeft_eq_zero hk)
  · rw [narrow_shr, BitVec.toNat_ushiftRight, Nat.shiftRight_eq_div_pow]
  · exact (narrow_shr ..).trans (BitVec.ushiftRight_eq_zero hk)

end Sys2Proof.Machine
end

section
/-! CMP, JMP, JEQ and JNE, and who writes and who reads FL (43_compare_branch.md). -/

namespace Sys2Proof.Machine

section
variable {a b : Byte}

theorem compareFlag_of_eq (h : a.toNat = b.toNat) : compareFlag a b = .equal := if_pos h
theorem compareFlag_of_gt (h : b.toNat < a.toNat) : compareFlag a b = .greater := (if_neg h.ne').trans (if_pos h)
theorem compareFlag_of_lt (h : a.toNat < b.toNat) : compareFlag a b = .less := (if_neg h.ne).trans (if_neg h.not_gt)

end

/-- Setting the PC leaves all else. -/
theorem setPc_frame (n : Nat) (s : State) : (setPc n s).fl = s.fl ∧ (setPc n s).status = s.status ∧ (setPc n s).out = s.out ∧
    Keeps [] [] s (setPc n s) :=
  ⟨rfl, rfl, rfl, (Keeps.refl [] [] s).of_regs_mem rfl rfl⟩

variable {s t : State} {i : Instr} {o p : Host.Outcome State Fault Refusal}

/-- JEQ, taken or not, sets the PC and nothing else (R240). -/
theorem exec_jeq_eq_setPc (ra : RegIdx) (s : State) :
    exec (.jeq ra) s = .next (setPc (if s.fl = .equal then (readReg ra s).toNat else s.pc + 2) s) := by
  split
  case isTrue h => exact exec_jeq_taken ra h
  case isFalse h => exact exec_jeq_not_taken ra h

/-- JNE, taken or not, sets the PC and nothing else (R245). -/
theorem exec_jne_eq_setPc (ra : RegIdx) (s : State) :
    exec (.jne ra) s = .next (setPc (if s.fl ≠ .equal then (readReg ra s).toNat else s.pc + 2) s) := by
  split
  case isTrue h => exact exec_jne_taken ra h
  case isFalse h => exact exec_jne_not_taken ra (not_not.1 h)

/-- CMP is the only completing instruction that writes FL (R231). -/
theorem Effect.fl (h : Effect s i t) : t.fl = s.fl ∨ ∃ ra rb, i = .cmp ra rb := by
  cases h with
  | cmp ra rb => exact .inr ⟨ra, rb, rfl⟩
  | writes | prn | hlt | push | pop | call | ret | jumps | falls => exact .inl rfl

/-- Both outcomes are next states, equal in everything but FL. -/
def AlikeButFlag (o p : Host.Outcome State Fault Refusal) : Prop :=
  ∃ t t', o = .next t ∧ p = .next t' ∧ SameButFlag t t'

theorem AlikeButFlag.exists_next (h : AlikeButFlag o p) (ho : o = .next t) : ∃ t', p = .next t' ∧ SameButFlag t t' := by
  obtain ⟨u, t', hu, ht', hsame⟩ := h
  cases hu.symm.trans ho
  exact ⟨t', ht', hsame⟩

theorem dividingForm_setFlag (name : DivOp) (op : Nat → Nat → Int) (ra rb : RegIdx) (k : Flag) (s : State) :
    AlikeButFlag (dividingForm name op ra rb s) (dividingForm name op ra rb (setFlag k s)) := by
  by_cases h : readReg rb s = 0
  · exact ⟨_, _, if_pos h, if_pos h, rfl⟩
  · exact ⟨_, _, if_neg h, if_neg h, rfl⟩

/-- With another FL an instruction does the same but for FL, where a conditional jump needs that both or neither are Equal. -/
theorem exec_setFlag_alike (i : Instr) (k : Flag) (s : State)
    (hk : ∀ ra, i = .jeq ra ∨ i = .jne ra → (k = .equal ↔ s.fl = .equal)) : AlikeButFlag (exec i s) (exec i (setFlag k s)) := by
  cases i with
  | ldi | prn | hlt | add | sub | mul | and | or | xor | not | shl | shr | cmp | jmp => exact ⟨_, _, rfl, rfl, rfl⟩
  | div | mod => exact dividingForm_setFlag ..
  | jeq ra =>
    refine ⟨_, _, exec_jeq_eq_setPc ra s, exec_jeq_eq_setPc ra (setFlag k s), ?_⟩
    simp only [setFlag_fl, hk ra (.inl rfl)]
    rfl
  | jne ra =>
    refine ⟨_, _, exec_jne_eq_setPc ra s, exec_jne_eq_setPc ra (setFlag k s), ?_⟩
    simp only [setFlag_fl, ne_eq, hk ra (.inr rfl)]
    rfl
  | push ra =>
    by_cases h : readSp s = 0
    · exact ⟨_, _, exec_push_fault ra h, exec_push_fault ra h, rfl⟩
    · exact ⟨_, _, exec_push ra h, exec_push ra h, rfl⟩
  | pop ra =>
    by_cases h : readSp s = 255
    · exact ⟨_, _, exec_pop_fault ra h, exec_pop_fault ra h, rfl⟩
    · exact ⟨_, _, exec_pop ra h, exec_pop ra h, rfl⟩
  | call ra =>
    by_cases h : readSp s = 0
    · exact ⟨_, _, exec_call_stack_fault ra h, exec_call_stack_fault ra h, rfl⟩
    · by_cases hp : s.pc + 2 ≤ 255
      · exact ⟨_, _, exec_call ra h hp, exec_call ra h hp, rfl⟩
      · have hp := Nat.lt_of_not_le hp
        exact ⟨_, _, exec_call_range_fault ra h hp, exec_call_range_fault ra h hp, rfl⟩
  | ret =>
    by_cases h : readSp s = 255
    · exact ⟨_, _, exec_ret_fault h, exec_ret_fault h, rfl⟩
    · exact ⟨_, _, exec_ret h, exec_ret h, rfl⟩

/-- Settles O36: both jumps set the PC and nothing else, whichever way FL sends them. -/
theorem conditionalJumpsReadTheFlag : Obligations.ConditionalJumpsReadTheFlag := fun ra s =>
  ⟨⟨_, exec_jeq_eq_setPc ra s, rfl, setPc_frame _ s⟩, ⟨_, exec_jne_eq_setPc ra s, rfl, setPc_frame _ s⟩⟩

/-- Settles O40: the writer by `Effect.fl`, and a fault writes no FL; the readers by `exec_setFlag_alike`, for which Greater and
Less are both not Equal. -/
theorem onlyCmpWritesAndJumpsReadTheFlag : Obligations.OnlyCmpWritesAndJumpsReadTheFlag := by
  refine ⟨fun i s t h hne => ?_, fun i k s t hi h => ?_, fun i s t h => ?_⟩
  · rcases exec_cases h with ⟨f, -, rfl⟩ | he
    · exact absurd (raiseFault_fl f s) hne
    · exact he.fl.resolve_left hne
  · exact (exec_setFlag_alike i k s fun ra hjump => absurd hjump (not_or.2 (hi ra))).exists_next h
  · have halike : AlikeButFlag (exec i (setFlag .greater s)) (exec i (setFlag .less s)) :=
      exec_setFlag_alike i .less (setFlag .greater s) fun _ _ => iff_of_false Flag.noConfusion Flag.noConfusion
    exact halike.exists_next h

/-- Settles O34: one `setFlag` of the comparison, then the PC moves. -/
theorem cmpSetsTheFlag : Obligations.CmpSetsTheFlag := fun ra rb s =>
  ⟨_, exec_cmp ra rb s, compareFlag_of_eq, compareFlag_of_gt, compareFlag_of_lt, rfl, rfl, rfl,
    (Keeps.refl [] [] s).of_regs_mem rfl rfl⟩

/-- Settles O35: one `setPc` to the register's value. -/
theorem jmpSetsThePc : Obligations.JmpSetsThePc := fun ra s => ⟨_, exec_jmp ra s, rfl, setPc_frame _ s⟩

end Sys2Proof.Machine
end

section
/-! DivideByZero and StackFault: where each is taken, and that taking it sets the status alone (60_exceptions.md R265, R266, R269). -/

namespace Sys2Proof.Machine

/-- DivideByZero is a fault of DIV and MOD alone, on a divisor of 0 (R269). -/
theorem OwnFault.of_divideByZero {s : State} {i : Instr} {op : DivOp} (h : OwnFault s i (.divideByZero op)) :
    ∃ ra rb, (i = .div ra rb ∨ i = .mod ra rb) ∧ readReg rb s = 0 := by
  cases h with
  | div ra rb h0 => exact ⟨ra, rb, .inl rfl, h0⟩
  | mod ra rb h0 => exact ⟨ra, rb, .inr rfl, h0⟩

/-- An instruction that leaves a Running core Faulted raised the fault recorded, as one of its own. -/
theorem ownFault_of_exec_faulted {s t : State} {i : Instr} {f : CoreFault} {p : Nat} (hs : s.status = .running)
    (h : exec i s = .next t) (ht : t.status = .faulted f p) : OwnFault s i f := by
  rcases exec_cases h with ⟨g, hg, rfl⟩ | he
  · cases ht
    exact hg
  · exact absurd ht (he.status_ne_faulted hs f p)

/-- Settles O30: `exec_div_fault` and `exec_mod_fault` say where it is taken; a fault recorded is one of the instruction's own
(`ownFault_of_exec_faulted`), and only DIV and MOD have this one. -/
theorem divideByZeroOnlyByDivAndMod : Obligations.DivideByZeroOnlyByDivAndMod :=
  ⟨fun _ _ _ h0 => ⟨exec_div_fault h0, exec_mod_fault h0⟩,
    fun _ _ _ _ _ hs h ht => (ownFault_of_exec_faulted hs h ht).of_divideByZero⟩

/-- Settles O23: each check of SP comes first and records the SP it saw. -/
theorem stackFaultsAtTheEnds : Obligations.StackFaultsAtTheEnds := by
  refine ⟨fun ra s hsp => ?_, fun ra s hsp => ?_⟩
  · rw [exec_push_fault ra hsp, exec_call_stack_fault ra hsp, hsp]
    exact ⟨rfl, rfl⟩
  · rw [exec_pop_fault ra hsp, exec_ret_fault hsp, hsp]
    exact ⟨rfl, rfl⟩

end Sys2Proof.Machine
end

section
/-! A pushed byte is what the next fetch sees, and a load writes its bytes from address 0 (20_memory.md section 5,
70_reset_and_hazards.md R293, R308). -/

namespace Sys2Proof.Machine

variable {s t : State}

/-- Byte `j` of a fetch is the cell at `a + j`, where there is one (R50, R101). -/
theorem getElem?_fetchBytes (s : State) (n a j : Nat) :
    (fetchBytes s n a)[j]? = if j < n ∧ a + j ≤ 255 then some (memRead (BitVec.ofNat 8 (a + j)) s) else none := by
  induction n generalizing a j with
  | zero => simp [fetchBytes]
  | succ n ih =>
    by_cases ha : a ≤ 255
    · rw [fetchBytes_succ_of_le ha]
      cases j with
      | zero => simp [ha]
      | succ j => simp [ih, show a + 1 + j = a + (j + 1) by omega]
    · rw [fetchBytes_of_gt (by omega), if_neg (by omega), List.getElem?_nil]

/-- A fetch after a write of one cell, the one at `a + k`, sees what it saw before with byte `k` replaced. -/
theorem fetchBytes_eq_set {p v : Byte} (hwrite : ∀ b, memRead b t = if b = p then v else memRead b s) {a k : Nat}
    (hp : p.toNat = a + k) (n : Nat) : fetchBytes t n a = (fetchBytes s n a).set k v := by
  have hpk : BitVec.ofNat 8 (a + k) = p := by rw [← hp, BitVec.ofNat_toNat, BitVec.setWidth_eq]
  refine List.ext_getElem? fun j => ?_
  rw [List.getElem?_set', getElem?_fetchBytes, getElem?_fetchBytes, hwrite]
  by_cases hj : k = j
  · subst hj
    split <;> simp [hpk]
  · rw [if_neg hj]
    refine ite_congr rfl (fun hin => ?_) fun _ => rfl
    have hne : BitVec.ofNat 8 (a + j) ≠ p := fun heq => by
      have haddr := congrArg BitVec.toNat heq
      rw [BitVec.toNat_ofNat] at haddr
      omega
    rw [if_neg hne]

/-- Settles O46: the PUSH completes, since SP is not 0, and its one write is at the next PC plus `k` (`pushAddr_toNat`,
`fetchBytes_eq_set`); the status stays Running. -/
theorem pushedByteIsFetchedNext : Obligations.PushedByteIsFetchedNext := by
  intro map ra rest k s hs hd hk hsp
  have hsp0 : readSp s ≠ 0 := fun h0 => by
    have hzero : (readSp s).toNat = 0 := congrArg BitVec.toNat h0
    omega
  have haddr : (pushAddr s).toNat = s.pc + 2 + k := by
    have := pushAddr_toNat hsp0
    omega
  have hlen : k < (fetchBytes s 3 (s.pc + 2)).length := by
    have := (pushAddr s).isLt
    rw [fetchBytes_length_eq s (by omega)]
    omega
  have hwindow : fetchWindow (advancePc 2 (pushByte (readReg ra s) s)) = (fetchBytes s 3 (s.pc + 2)).set k (readReg ra s) :=
    fetchBytes_eq_set (fun b => memRead_pushByte b (readReg ra s) s) haddr 3
  refine ⟨_, (stepWith_of_decode hs hd).trans (exec_push ra hsp0), rfl, ?_, hwindow, fun i rest' => stepWith_of_decode hs⟩
  rw [hwindow, List.getElem?_set_self hlen]

/-- What a cell holds after bytes were written from address 0 up: its byte of the program, or what it held before. -/
theorem memRead_of_writeList_zero {p : List Byte} (hmem : t.mem = s.mem.writeList 0 p) (a : Byte) :
    memRead a t = if h : a.toNat < p.length then p[a.toNat] else memRead a s := by
  simp [memRead, hmem, Memory.read_writeList]

/-- Settles O47: `hostLoad_of_fits` writes memory alone, and `memRead_of_writeList_zero` says what each cell then holds. -/
theorem loadWritesFromAddressZero : Obligations.LoadWritesFromAddressZero := by
  intro p s hs hp
  refine ⟨_, hostLoad_of_fits hs hp, fun k hk => ?_, fun a ha => ?_, rfl, rfl, rfl, rfl, rfl⟩
  · have haddr : (BitVec.ofNat 8 k).toNat = k := Nat.mod_eq_of_lt (hk.trans_le hp)
    rw [memRead_of_writeList_zero (s := s) rfl, dif_pos (haddr.symm ▸ hk)]
    simp only [haddr]
  · rw [memRead_of_writeList_zero (s := s) rfl, dif_neg (Nat.not_lt.2 ha)]

end Sys2Proof.Machine
end

section
/-! The invariant at reset and under the host's commands (70_reset_and_hazards.md R290 to R300). -/

namespace Sys2Proof.Machine

variable {map : Mnemonic → Byte} {s : State}

/-- Settles O2: nothing is listed in memory, the PC is 0, and the status is Idle. -/
theorem resetMeetsInvariant : Obligations.ResetMeetsInvariant :=
  fun _ => ⟨⟨.nil, fun _ h => absurd h List.not_mem_nil⟩, Nat.zero_le _, fun _ _ h => Status.noConfusion h⟩

/-- The host may load in every status but Running, also over a recorded fault: whether a fault fits reads no memory. -/
theorem Inv.hostLoad (hi : Inv map s) (p : List Byte) : Inv map (hostLoad p s).2 := by
  by_cases hs : s.status = .running
  · rwa [hostLoad_of_running p hs]
  · rw [hostLoad_of_stopped p hs]
    split
    case isTrue => exact hi
    case isFalse hp =>
      obtain ⟨hmem, hpc, hfault⟩ := hi
      exact ⟨Memory.wf_writeList hmem ((Nat.zero_add _).trans_le (Nat.not_lt.1 hp)), hpc, hfault⟩

theorem Inv.hostStart (hi : Inv map s) : Inv map (hostStart s).2 := by
  rcases hostStart_cases s with ⟨-, ht⟩ | ht
  · rw [ht]
    obtain ⟨hmem, -, -⟩ := hi
    exact ⟨hmem, Nat.zero_le _, fun _ _ h => Status.noConfusion h⟩
  · rwa [ht]

/-- Settles O4: reset leaves the reset state whatever came before; load and start keep the invariant; observe keeps the
state. -/
theorem hostCommandsKeepInvariant : Obligations.HostCommandsKeepInvariant := by
  intro map c s hi
  cases c with
  | reset => exact resetMeetsInvariant map
  | load p => exact hi.hostLoad p
  | start => exact hi.hostStart
  | observe q => exact (hostObserve_state q s).symm ▸ hi

end Sys2Proof.Machine
end

section
/-! The canonical form of memory determines its data: the entries are exactly the cells that read as something else than an
unlisted address does. -/

namespace Sys2Proof.Machine

/-- In canonical form, an entry is an address with the byte read there, where that is not what an unlisted address reads as. -/
theorem Memory.mem_iff_read {m : Memory} (hm : m.wf) (c : Host.Cell) :
    c ∈ m ↔ m.read c.1 = c.2 ∧ c.2 ≠ Memory.unlisted := by
  obtain ⟨hrising, hentry⟩ := hm
  refine ⟨fun hc => ⟨Memory.read_of_mem hrising hc, (hentry c hc).2⟩, fun ⟨hread, hne⟩ => ?_⟩
  have hlisted : ∃ d ∈ m, d.1 = c.1 := by
    by_contra hnone
    exact hne (hread.symm.trans (Memory.read_of_not_mem fun d hd hdc => hnone ⟨d, hd, hdc⟩))
  obtain ⟨d, hd, hdc⟩ := hlisted
  have hval : d.2 = c.2 := by rw [← hread, ← hdc, Memory.read_of_mem hrising hd]
  rwa [← Prod.ext hdc hval]

/-- In canonical form, an address outside the memory reads as unlisted (R20). -/
theorem Memory.read_of_wf_of_ge {m : Memory} (hm : m.wf) {a : Nat} (ha : 256 ≤ a) : m.read a = Memory.unlisted := by
  refine Memory.read_of_not_mem fun c hc hca => ?_
  obtain ⟨hcell, -⟩ := hm.2 c hc
  exact absurd hcell (Nat.not_lt.2 (hca.symm ▸ ha))

/-- Settles O5: memories that read alike have the same entries (`Memory.mem_iff_read`), and a strictly rising list is determined
by its entries. -/
theorem canonicalMemoriesThatReadAlikeAreEqual : Obligations.CanonicalMemoriesThatReadAlikeAreEqual := by
  intro m n hm hn hread
  have hreads : ∀ a, m.read a = n.read a := fun a => by
    by_cases ha : a < 256
    · exact hread a ha
    · rw [Memory.read_of_wf_of_ge hm (Nat.not_lt.1 ha), Memory.read_of_wf_of_ge hn (Nat.not_lt.1 ha)]
  have hirrefl : Std.Irrefl fun c d : Host.Cell => c.1 < d.1 := ⟨fun c => Nat.lt_irrefl c.1⟩
  have hantisymm : Std.Antisymm fun c d : Host.Cell => c.1 < d.1 := ⟨fun _ _ h h' => absurd h' h.not_gt⟩
  exact hm.1.eq_of_mem_iff hn.1 fun c => by rw [Memory.mem_iff_read hm, Memory.mem_iff_read hn, hreads]

end Sys2Proof.Machine
end

section
/-! Rules of every step and every instruction: a next state is answered, a stopped core keeps its state, FL never becomes Unset
again, and only the registers of the writes column are written. -/

namespace Sys2Proof.Machine

variable {s t : State} {i : Instr}

/-- An instruction always answers a next state (notes/assumptions/4.md). -/
theorem exists_exec_eq_next (i : Instr) (s : State) : ∃ t, exec i s = .next t := by
  obtain ⟨t, -, ht, -⟩ := exec_alike (s := s) (n := s.mem) i rfl
  exact ⟨t, ht⟩

/-- Settles O6: a stopped core answers its own state, a Running one the instruction's next state or the fault's. -/
theorem everyStepAnswersANextState : Obligations.EveryStepAnswersANextState := by
  intro map s
  by_cases hs : s.status = .running
  · cases hd : decodeWith map (fetchWindow s) with
    | ok p => rw [stepWith_of_decode hs hd]; exact exists_exec_eq_next p.1 s
    | error e => exact ⟨_, stepWith_of_error hs hd⟩
  · exact ⟨s, stepWith_of_stopped hs⟩

/-- Settles O12: outside Running no fetch happens (`stepWith_of_stopped`). -/
theorem stoppedCoreKeepsItsState : Obligations.StoppedCoreKeepsItsState := fun _ _ hs => stepWith_of_stopped hs

/-- A comparison never answers Unset (R230). -/
theorem compareFlag_ne_unset (a b : Byte) : compareFlag a b ≠ .unset := by
  unfold compareFlag
  split
  case isTrue => exact Flag.noConfusion
  case isFalse => split <;> exact Flag.noConfusion

/-- A completing instruction keeps FL or writes a comparison into it (R231). -/
theorem Effect.fl_ne_unset (h : Effect s i t) (hs : s.fl ≠ .unset) : t.fl ≠ .unset := by
  cases h with
  | cmp => exact compareFlag_ne_unset _ _
  | writes | prn | hlt | push | pop | call | ret | jumps | falls => exact hs

/-- Settles O41: a stopped core and a fault keep FL, and so does an instruction, but CMP, which writes no Unset. -/
theorem flagNeverReturnsToUnset : Obligations.FlagNeverReturnsToUnset := by
  intro map s t h hs
  rcases stepWith_cases h with ⟨-, rfl⟩ | ⟨-, i, rest, -, hx⟩ | ⟨-, e, -, rfl⟩
  · exact hs
  · rcases exec_cases hx with ⟨f, -, rfl⟩ | he
    · exact hs
    · exact he.fl_ne_unset hs
  · exact hs

/-- A completing instruction keeps the registers its row does not write (R29). -/
theorem Effect.readReg_of_not_mem (h : Effect s i t) {r : RegIdx} (hr : r ∉ regsWritten i) : readReg r t = readReg r s := by
  cases h with
  | writes _ q v hq => exact (writeReg_keeps q v s).1 r (List.mem_singleton.not.2 fun hrq => hr (hrq ▸ hq))
  | push ra => exact (pushByte_keeps (readReg ra s) s).1 r hr
  | call => exact (pushByte_keeps (narrow ((s.pc : Int) + 2)) s).1 r hr
  | ret => exact (popSp_keeps s).1 r hr
  | pop ra =>
    obtain ⟨hsp, hra⟩ := not_or.1 (mt List.mem_pair.2 hr)
    rw [readReg_advancePc, readReg_writeReg, if_neg hra, readReg_popSp, if_neg hsp]
  | prn | hlt | cmp | jumps | falls => rfl

/-- Settles O44: a fault writes no register; a completing instruction is `Effect.readReg_of_not_mem`. -/
theorem registersOffTheTableAreKept : Obligations.RegistersOffTheTableAreKept := by
  intro i s t r h hr
  rcases exec_cases h with ⟨f, -, rfl⟩ | he
  · exact readReg_raiseFault r f s
  · exact he.readReg_of_not_mem hr

end Sys2Proof.Machine
end

section
/-! The encoding examples, the range check of CALL, and the division law (30_encoding.md R105, 41_stack_call.md R164, 42_alu.md
R215). -/

namespace Sys2Proof.Machine

/-- Settles O9: ten runs of the decoder. -/
theorem encodingExamplesDecode : Obligations.EncodingExamplesDecode :=
  ⟨rfl, rfl, rfl, rfl, rfl, rfl, rfl, rfl, rfl, rfl⟩

/-- Settles O24: after the check of SP, the range check takes the fault (`exec_call_range_fault`). -/
theorem callReturnAddressMustFit : Obligations.CallReturnAddressMustFit := fun ra _ hsp hpc => exec_call_range_fault ra hsp hpc

/-- Settles O29: DIV leaves A / B and MOD leaves A - B * (A / B), which is A % B. -/
theorem divisionLaw : Obligations.DivisionLaw := by
  intro ra rb s t u hb ht hu
  obtain ⟨⟨t', ht', hq, -⟩, ⟨u', hu', hr, -⟩⟩ := divModCompute ra rb s hb
  cases ht.symm.trans ht'
  cases hu.symm.trans hu'
  have hpos : 0 < (readReg rb s).toNat := Nat.pos_of_ne_zero fun h0 => hb (BitVec.eq_of_toNat_eq h0)
  rw [← Nat.mod_eq_sub_mul_div] at hr
  rw [hq, hr]
  exact ⟨(Nat.div_add_mod ..).symm, Nat.mod_lt _ hpos⟩

end Sys2Proof.Machine
end

section
/-! A register an instruction does not read does not influence it: on two states equal in everything but that register it does
the same (10_state.md R29, the reads column). -/

namespace Sys2Proof.Machine

variable {q : RegIdx} {s s' : State}

/-- A register write makes no difference but in that register. -/
theorem sameButReg_writeReg (q : RegIdx) (v : Int) (s : State) : SameButReg q s (writeReg q v s) :=
  ⟨fun r hr => by rw [readReg_writeReg, if_neg hr], rfl, rfl, rfl, rfl, rfl⟩

namespace SameButReg

theorem advancePc_congr (n : Nat) : SameButReg q s s' → SameButReg q (advancePc n s) (advancePc n s')
  | ⟨hregs, hpc, hfl, hstatus, hout, hmem⟩ => ⟨hregs, congrArg (· + n) hpc, hfl, hstatus, hout, hmem⟩

theorem setPc_congr (n : Nat) : SameButReg q s s' → SameButReg q (setPc n s) (setPc n s')
  | ⟨hregs, _, hfl, hstatus, hout, hmem⟩ => ⟨hregs, rfl, hfl, hstatus, hout, hmem⟩

theorem setFlag_congr (k : Flag) : SameButReg q s s' → SameButReg q (setFlag k s) (setFlag k s')
  | ⟨hregs, hpc, _, hstatus, hout, hmem⟩ => ⟨hregs, hpc, rfl, hstatus, hout, hmem⟩

theorem setStatus_congr (st : Status) : SameButReg q s s' → SameButReg q (setStatus st s) (setStatus st s')
  | ⟨hregs, hpc, hfl, _, hout, hmem⟩ => ⟨hregs, hpc, hfl, rfl, hout, hmem⟩

theorem emit_congr (v : Byte) : SameButReg q s s' → SameButReg q (emit v s) (emit v s')
  | ⟨hregs, hpc, hfl, hstatus, hout, hmem⟩ => ⟨hregs, hpc, hfl, hstatus, congrArg (· ++ [v]) hout, hmem⟩

theorem memWrite_congr (a v : Byte) : SameButReg q s s' → SameButReg q (memWrite a v s) (memWrite a v s')
  | ⟨hregs, hpc, hfl, hstatus, hout, hmem⟩ => ⟨hregs, hpc, hfl, hstatus, hout, congrArg (·.write a.toNat v) hmem⟩

/-- The register written may be `q` itself: then both states hold the value written. -/
theorem writeReg_congr (r : RegIdx) (v : Int) : SameButReg q s s' → SameButReg q (writeReg r v s) (writeReg r v s')
  | ⟨hregs, hrest⟩ => ⟨fun p hp => by rw [readReg_writeReg, readReg_writeReg, hregs p hp], hrest⟩

theorem raiseFault_congr (f : CoreFault) (h : SameButReg q s s') : SameButReg q (raiseFault f s) (raiseFault f s') := by
  have ⟨_, hpc, _⟩ := h
  rw [raiseFault, raiseFault, hpc]
  exact h.setStatus_congr _

/-- A register other than `q` reads the same. -/
theorem readReg_eq (h : SameButReg q s s') {r : RegIdx} {rs : List RegIdx} (hq : q ∉ rs) (hr : r ∈ rs) :
    readReg r s' = readReg r s :=
  h.1 r fun hrq => hq (hrq ▸ hr)

/-- A push reads SP alone (R26). -/
theorem pushByte_congr (v : Byte) (h : SameButReg q s s') (hsp : readSp s' = readSp s) :
    SameButReg q (pushByte v s) (pushByte v s') := by
  rw [pushByte, pushByte, pushAddr, pushAddr, hsp]
  exact (h.writeReg_congr _ _).memWrite_congr _ v

/-- A pop moves SP by SP alone. -/
theorem popSp_congr (h : SameButReg q s s') (hsp : readSp s' = readSp s) : SameButReg q (popSp s) (popSp s') := by
  rw [popSp, popSp, hsp]
  exact h.writeReg_congr _ _

/-- The byte a pop takes depends on SP and memory alone. -/
theorem stackTop_eq (h : SameButReg q s s') (hsp : readSp s' = readSp s) : stackTop s' = stackTop s := by
  obtain ⟨-, -, -, -, -, hmem⟩ := h
  rw [stackTop, stackTop, hsp, memRead, memRead, hmem]

end SameButReg

/-- Both outcomes are next states, equal in everything but register q. -/
def AlikeButReg (q : RegIdx) (o p : Host.Outcome State Fault Refusal) : Prop :=
  ∃ t t', o = .next t ∧ p = .next t' ∧ SameButReg q t t'

section
variable (h : SameButReg q s s')
include h

/-- Both take the same fault. -/
theorem AlikeButReg.faults {o p : Host.Outcome State Fault Refusal} {f : CoreFault} (ho : o = .next (raiseFault f s))
    (hp : p = .next (raiseFault f s')) : AlikeButReg q o p :=
  ⟨_, _, ho, hp, h.raiseFault_congr f⟩

theorem binaryForm_alikeButReg (op : Nat → Nat → Int) {ra rb : RegIdx} (hq : q ∉ [ra, rb]) :
    AlikeButReg q (binaryForm op ra rb s) (binaryForm op ra rb s') := by
  refine ⟨_, _, rfl, rfl, ?_⟩
  rw [h.readReg_eq hq (by simp : ra ∈ _), h.readReg_eq hq (by simp : rb ∈ _)]
  exact (h.writeReg_congr _ _).advancePc_congr 3

theorem dividingForm_alikeButReg (name : DivOp) (op : Nat → Nat → Int) {ra rb : RegIdx} (hq : q ∉ [ra, rb]) :
    AlikeButReg q (dividingForm name op ra rb s) (dividingForm name op ra rb s') := by
  have hrb : readReg rb s' = readReg rb s := h.readReg_eq hq (by simp)
  by_cases h0 : readReg rb s = 0
  · exact .faults h (if_pos h0) (if_pos (hrb.trans h0))
  · rw [dividingForm, dividingForm, hrb, if_neg h0, if_neg h0]
    exact binaryForm_alikeButReg h op hq

/-- A jump not taken reads no register (R240, R245). -/
theorem jumpForm_alikeButReg (taken : Bool) {ra : RegIdx} (hq : q ∉ if taken then [ra] else []) :
    AlikeButReg q (jumpForm taken ra s) (jumpForm taken ra s') := by
  cases taken with
  | false => exact ⟨_, _, rfl, rfl, h.advancePc_congr 2⟩
  | true =>
    refine ⟨_, _, rfl, rfl, ?_⟩
    rw [h.readReg_eq hq (List.mem_singleton_self ra)]
    exact h.setPc_congr _

/-- An instruction reads no register outside its reads column, so it does the same on states equal but for such a register. -/
theorem exec_alikeButReg {i : Instr} (hq : q ∉ regsRead s.fl i) : AlikeButReg q (exec i s) (exec i s') := by
  have ⟨_, hpc, hfl, _⟩ := h
  cases i with
  | ldi ra imm => exact ⟨_, _, rfl, rfl, (h.writeReg_congr ra _).advancePc_congr 3⟩
  | hlt => exact ⟨_, _, rfl, rfl, (h.setStatus_congr .halted).advancePc_congr 1⟩
  | add | sub | mul | and | or | xor | shl | shr =>
    simp only [exec, execAdd, execSub, execMul, execAnd, execOr, execXor, execShl, execShr]
    exact binaryForm_alikeButReg h _ hq
  | div | mod => exact dividingForm_alikeButReg h _ _ hq
  | jmp => exact jumpForm_alikeButReg h true hq
  | jeq ra =>
    rw [exec, exec, execJeq, execJeq, hfl]
    exact jumpForm_alikeButReg h _ hq
  | jne ra =>
    rw [exec, exec, execJne, execJne, hfl]
    exact jumpForm_alikeButReg h _ hq
  | prn ra =>
    refine ⟨_, _, rfl, exec_prn ra s', ?_⟩
    rw [h.readReg_eq hq (List.mem_singleton_self ra)]
    exact (h.emit_congr _).advancePc_congr 2
  | not ra =>
    refine ⟨_, _, rfl, exec_not ra s', ?_⟩
    rw [h.readReg_eq hq (List.mem_singleton_self ra)]
    exact (h.writeReg_congr ra _).advancePc_congr 2
  | cmp ra rb =>
    refine ⟨_, _, rfl, exec_cmp ra rb s', ?_⟩
    rw [h.readReg_eq hq (by simp [regsRead] : ra ∈ _), h.readReg_eq hq (by simp [regsRead] : rb ∈ _)]
    exact (h.setFlag_congr _).advancePc_congr 3
  | push ra =>
    have hsp : readSp s' = readSp s := h.readReg_eq hq (by simp [regsRead])
    by_cases h0 : readSp s = 0
    · exact .faults h (exec_push_fault ra h0) (hsp ▸ exec_push_fault ra (hsp.trans h0))
    · refine ⟨_, _, exec_push ra h0, exec_push ra (hsp ▸ h0), ?_⟩
      rw [h.readReg_eq hq (by simp [regsRead] : ra ∈ _)]
      exact (h.pushByte_congr _ hsp).advancePc_congr 2
  | pop ra =>
    have hsp : readSp s' = readSp s := h.readReg_eq hq (by simp [regsRead])
    by_cases h0 : readSp s = 255
    · exact .faults h (exec_pop_fault ra h0) (hsp ▸ exec_pop_fault ra (hsp.trans h0))
    · refine ⟨_, _, exec_pop ra h0, exec_pop ra (hsp ▸ h0), ?_⟩
      rw [h.stackTop_eq hsp]
      exact ((h.popSp_congr hsp).writeReg_congr ra _).advancePc_congr 2
  | call ra =>
    have hsp : readSp s' = readSp s := h.readReg_eq hq (by simp [regsRead])
    by_cases h0 : readSp s = 0
    · exact .faults h (exec_call_stack_fault ra h0) (hsp ▸ exec_call_stack_fault ra (hsp.trans h0))
    · by_cases hp : s.pc + 2 ≤ 255
      · refine ⟨_, _, exec_call ra h0 hp, exec_call ra (hsp ▸ h0) (hpc ▸ hp), ?_⟩
        have hpush : SameButReg q (pushByte (narrow ((s.pc : Int) + 2)) s) (pushByte (narrow ((s.pc : Int) + 2)) s') :=
          h.pushByte_congr _ hsp
        rw [hpc, hpush.readReg_eq hq (by simp [regsRead] : ra ∈ _)]
        exact hpush.setPc_congr _
      · have hp := Nat.lt_of_not_le hp
        exact .faults h (exec_call_range_fault ra h0 hp) (hpc ▸ exec_call_range_fault ra (hsp ▸ h0) (hpc ▸ hp))
  | ret =>
    have hsp : readSp s' = readSp s := h.readReg_eq hq (by simp [regsRead])
    by_cases h0 : readSp s = 255
    · exact .faults h (exec_ret_fault h0) (hsp ▸ exec_ret_fault (hsp.trans h0))
    · refine ⟨_, _, exec_ret h0, exec_ret (hsp ▸ h0), ?_⟩
      rw [h.stackTop_eq hsp]
      exact (h.popSp_congr hsp).setPc_congr _

end

/-- Settles O45: the write of `q` makes no difference but in `q` (`sameButReg_writeReg`), which the instruction keeps
(`exec_alikeButReg`). -/
theorem unreadRegistersDoNotInfluence : Obligations.UnreadRegistersDoNotInfluence := by
  intro i q v s t hq ht
  obtain ⟨u, t', hu, ht', hsame⟩ := exec_alikeButReg (sameButReg_writeReg q v s) hq
  cases hu.symm.trans ht
  exact ⟨t', ht', hsame⟩

end Sys2Proof.Machine
end

section
/-! The host interface: what load, start and observe answer in each status (70_reset_and_hazards.md R293 to R300). -/

namespace Sys2Proof.Machine

variable {s : State}

theorem hostStart_of_running (hs : s.status = .running) : hostStart s = (.noEffect, s) := by
  simp only [hostStart, hs]

theorem hostStart_of_faulted {f : CoreFault} {p : Nat} (hs : s.status = .faulted f p) : hostStart s = (.refused, s) := by
  simp only [hostStart, hs]

theorem hostObserve_of_running (q : Query) (hs : s.status = .running) : hostObserve q s = (.refused, s) := by
  simp only [hostObserve, hs]

/-- Settles O48: the length is checked before any write (`hostLoad_of_stopped`). -/
theorem oversizeLoadChangesNothing : Obligations.OversizeLoadChangesNothing :=
  fun p _ hs hp => (hostLoad_of_stopped p hs).trans (if_pos hp)

/-- Settles O49: each command by its lemma for the status, and an observation only reads (`hostObserve_state`). -/
theorem hostIsLockedOut : Obligations.HostIsLockedOut :=
  ⟨fun p q _ hs => ⟨hostLoad_of_running p hs, hostObserve_of_running q hs, hostStart_of_running hs⟩,
    fun _ _ _ hs => hostStart_of_faulted hs, hostObserve_state⟩

/-- Settles O50: a start from Idle or Halted is accepted (`hostStart_of_stopped`). -/
theorem startSetsPcZeroAndRunning : Obligations.StartSetsPcZeroAndRunning := fun _ hs => hostStart_of_stopped hs

end Sys2Proof.Machine
end

section
/-! The text of the output determines the stream: a value's digits give it back, and none of them is the line terminator (R126,
R305, D16). -/

namespace Sys2Proof.Machine

/-- The number that decimal digits stand for, the first digit the highest. -/
def decimalValue (text : List Byte) : Nat := text.foldl (fun n b => 10 * n + (b.toNat - 48)) 0

theorem digitByte_toNat {d : Nat} (h : d < 10) : (digitByte d).toNat = 48 + d :=
  Nat.mod_eq_of_lt (by omega)

theorem lineTerminator_ne_digitByte {d : Nat} (h : d < 10) : Config.lineTerminator ≠ digitByte d := fun heq => by
  have hval : 10 = (digitByte d).toNat := congrArg BitVec.toNat heq
  rw [digitByte_toNat h] at hval
  omega

/-- The text of a byte reads back as the byte (R126). -/
theorem decimalValue_decimalText (v : Byte) : decimalValue (decimalText v) = v.toNat := by
  have hv := v.isLt
  unfold decimalText
  split
  · simp only [decimalValue, List.foldl, digitByte_toNat ‹_›]
    omega
  · split
    · simp only [decimalValue, List.foldl, digitByte_toNat (show v.toNat / 10 < 10 by omega),
        digitByte_toNat (show v.toNat % 10 < 10 by omega)]
      omega
    · simp only [decimalValue, List.foldl, digitByte_toNat (show v.toNat / 100 < 10 by omega),
        digitByte_toNat (show v.toNat / 10 % 10 < 10 by omega), digitByte_toNat (show v.toNat % 10 < 10 by omega)]
      omega

theorem decimalText_injective : Function.Injective decimalText := fun v w h =>
  BitVec.eq_of_toNat_eq (by rw [← decimalValue_decimalText v, h, decimalValue_decimalText])

/-- The text of a byte is one line: its digits are no line feed. -/
theorem lineTerminator_not_mem_decimalText (v : Byte) : Config.lineTerminator ∉ decimalText v := by
  have hv := v.isLt
  unfold decimalText
  split
  · exact List.mem_singleton.not.2 (lineTerminator_ne_digitByte ‹_›)
  · split <;> simp only [List.mem_cons, List.not_mem_nil, or_false, not_or]
    · exact ⟨lineTerminator_ne_digitByte (by omega), lineTerminator_ne_digitByte (by omega)⟩
    · exact ⟨lineTerminator_ne_digitByte (by omega), lineTerminator_ne_digitByte (by omega),
        lineTerminator_ne_digitByte (by omega)⟩

/-- Two texts whose first terminators end equal texts begin with the same line. -/
theorem line_eq_of_append_eq {a : Byte} : ∀ {x y x' y' : List Byte}, a ∉ x → a ∉ y → x ++ a :: x' = y ++ a :: y' →
    x = y ∧ x' = y'
  | [], [], _, _, _, _, h => ⟨rfl, List.tail_eq_of_cons_eq h⟩
  | [], _ :: _, _, _, _, hy, h => absurd (List.head_eq_of_cons_eq h) (List.ne_of_not_mem_cons hy)
  | _ :: _, [], _, _, hx, _, h => absurd (List.head_eq_of_cons_eq h).symm (List.ne_of_not_mem_cons hx)
  | b :: x, c :: y, _, _, hx, hy, h => by
    obtain ⟨rfl, htail⟩ := List.cons.inj h
    obtain ⟨rfl, hrest⟩ := line_eq_of_append_eq (List.not_mem_of_not_mem_cons hx) (List.not_mem_of_not_mem_cons hy) htail
    exact ⟨rfl, hrest⟩

/-- Settles O52, by induction on the stream: the text up to the first line feed is the first value's, and gives it back. -/
theorem outputTextDeterminesTheStream : Obligations.OutputTextDeterminesTheStream := by
  intro xs
  induction xs with
  | nil =>
    intro ys h
    cases ys with
    | nil => rfl
    | cons v ys => exact absurd h.symm (List.append_ne_nil_of_right_ne_nil _ (List.cons_ne_nil _ _))
  | cons v xs ih =>
    intro ys h
    cases ys with
    | nil => exact absurd h (List.append_ne_nil_of_right_ne_nil _ (List.cons_ne_nil _ _))
    | cons w ys =>
      obtain ⟨hline, hrest⟩ := line_eq_of_append_eq (lineTerminator_not_mem_decimalText v)
        (lineTerminator_not_mem_decimalText w) h
      rw [decimalText_injective hline, ih ys hrest]

end Sys2Proof.Machine
end
